-- ==== Sys2Proof/Word.lean ====
section
/-!
DEFINITION. The bit vectors of the block (00_scope.md R5, R6): the opcode, the two operand buses and the result
bus, and the 16-bit code unit of the string hash, with the reading `bits_N` of an exact integer as a pattern.
-/

namespace Sys2Proof

/-- The 8-bit opcode of a request (R5, R18). -/
abbrev Opcode := BitVec 8

/-- An operand bus or the result bus: 64 bits (R5, R18, R20). -/
abbrev Bus := BitVec 64

/-- One code unit of the string hash: 16 bits (R5, R33). -/
abbrev CodeUnit := BitVec 16

/-- `bits_32(z)` of R6: the residue of an exact integer modulo 2^32. -/
abbrev bits32 (z : Int) : BitVec 32 := BitVec.ofInt 32 z

/-- `bits_64(z)` of R6: the residue of an exact integer modulo 2^64. -/
abbrev bits64 (z : Int) : BitVec 64 := BitVec.ofInt 64 z

end Sys2Proof
end

