-- ==== Sys2Proof/Syntax.lean ====
section
/-!
DEFINITION. The commands of the block (30_encoding.md R44), one constructor for each row of the opcode table, and the
request that carries one (10_state.md R18). A constructor carries the buses its command reads: an unused bus is
ignored whatever it holds (R18), so a command that reads one bus carries one.
-/

namespace Sys2Proof

/-- The four numeric types (00_scope.md R10). -/
inductive NumType where
  | int32 | int64 | float32 | float64
deriving DecidableEq, Repr

/-- What the "operands" column of R44 says a bus carries. -/
inductive OperandKind where
  | num (t : NumType)   -- a value of a numeric type, taken from the bus by R19
  | amount              -- a shift amount, masked in the shift unit (R74)
  | codeUnit            -- a code unit of the hash, bits 15..0 (R91)
deriving DecidableEq, Repr

/-- A request on the command port: the opcode and the two operand buses (R18, R35). -/
structure Request where
  op : Opcode
  a  : Bus
  b  : Bus
deriving DecidableEq, Repr

/-- The 33 commands of R44. -/
inductive Instr where
  -- Unit 0: integer conversions (40_int_conversion.md)
  /-- I32_TO_I64, a: Int32, result Int64 (R51). -/
  | i32ToI64 (a : Bus)
  /-- I64_TO_I32, a: Int64, result Int32 (R52). -/
  | i64ToI32 (a : Bus)
  /-- I32_TO_I32, a: Int32, result Int32 (R53). -/
  | i32ToI32 (a : Bus)
  /-- I64_TO_I64, a: Int64, result Int64 (R54). -/
  | i64ToI64 (a : Bus)
  -- Unit 1: float to integer (41_float_to_int.md)
  /-- F32_TO_I32, a: Float32, result Int32 (R57). -/
  | f32ToI32 (a : Bus)
  /-- F32_TO_I64, a: Float32, result Int64 (R58). -/
  | f32ToI64 (a : Bus)
  /-- F64_TO_I32, a: Float64, result Int32 (R59). -/
  | f64ToI32 (a : Bus)
  /-- F64_TO_I64, a: Float64, result Int64 (R60). -/
  | f64ToI64 (a : Bus)
  -- Unit 2: integer to float (42_int_to_float.md)
  /-- I32_TO_F32, a: Int32, result Float32 (R63). -/
  | i32ToF32 (a : Bus)
  /-- I32_TO_F64, a: Int32, result Float64 (R64). -/
  | i32ToF64 (a : Bus)
  /-- I64_TO_F32, a: Int64, result Float32 (R65). -/
  | i64ToF32 (a : Bus)
  /-- I64_TO_F64, a: Int64, result Float64 (R66). -/
  | i64ToF64 (a : Bus)
  -- Unit 3: Float32 and Float64 (43_ieee754_convert.md)
  /-- F32_TO_F64, a: Float32, result Float64 (R68). -/
  | f32ToF64 (a : Bus)
  /-- F64_TO_F32, a: Float64, result Float32 (R69). -/
  | f64ToF32 (a : Bus)
  /-- F32_TO_F32, a: Float32, result Float32 (R70). -/
  | f32ToF32 (a : Bus)
  /-- F64_TO_F64, a: Float64, result Float64 (R71). -/
  | f64ToF64 (a : Bus)
  -- Unit 4: shifts (44_shift.md)
  /-- SHL32, a: Int32 value, b: amount, result Int32 (R75). -/
  | shl32 (a b : Bus)
  /-- SHRS32, a: Int32 value, b: amount, result Int32 (R76). -/
  | shrs32 (a b : Bus)
  /-- SHRU32, a: Int32 value, b: amount, result Int32 (R77). -/
  | shru32 (a b : Bus)
  /-- SHL64, a: Int64 value, b: amount, result Int64 (R78). -/
  | shl64 (a b : Bus)
  /-- SHRS64, a: Int64 value, b: amount, result Int64 (R79). -/
  | shrs64 (a b : Bus)
  /-- SHRU64, a: Int64 value, b: amount, result Int64 (R80). -/
  | shru64 (a b : Bus)
  -- Unit 5: remainder (45_remainder.md)
  /-- REM32, a: Int32 dividend, b: Int32 divisor, result Int32 (R83). -/
  | rem32 (a b : Bus)
  /-- REM64, a: Int64 dividend, b: Int64 divisor, result Int64 (R84). -/
  | rem64 (a b : Bus)
  /-- FREM32, a: Float32 dividend, b: Float32 divisor, result Float32 (R86). -/
  | frem32 (a b : Bus)
  /-- FREM64, a: Float64 dividend, b: Float64 divisor, result Float64 (R87). -/
  | frem64 (a b : Bus)
  -- Unit 6: string hash (46_string_hash.md)
  /-- HASH_CLR, none, result Int32 (R90). -/
  | hashClr
  /-- HASH_STEP, b: code unit, result Int32 (R91). -/
  | hashStep (b : Bus)
  /-- HASH_READ, none, result Int32 (R92). -/
  | hashRead
  -- Unit 7: Counter32 (47_counters.md)
  /-- C32_NEW, none, result Int32 (R95). -/
  | c32New
  /-- C32_GETADD, b: Int32 delta, result Int32 (R96). -/
  | c32GetAdd (b : Bus)
  -- Unit 8: Counter64 (47_counters.md)
  /-- C64_NEW, none, result Int64 (R97). -/
  | c64New
  /-- C64_GETADD, b: Int64 delta, result Int64 (R98). -/
  | c64GetAdd (b : Bus)
deriving DecidableEq, Repr

/-- Why a request is no command (R46): the opcode is reserved. -/
inductive Reject where
  /-- The `unit` field is 9 to 15, which selects nothing (R43, R46). -/
  | reservedUnit (op : Opcode)
  /-- The `unit` field selects a unit, and `fn` no operation of it (R45, R46). -/
  | reservedFunction (op : Opcode)
deriving DecidableEq, Repr

/-- The name of a command, as R44 spells it. -/
def Instr.mnemonic : Instr → String
  | .i32ToI64 _ => "I32_TO_I64"
  | .i64ToI32 _ => "I64_TO_I32"
  | .i32ToI32 _ => "I32_TO_I32"
  | .i64ToI64 _ => "I64_TO_I64"
  | .f32ToI32 _ => "F32_TO_I32"
  | .f32ToI64 _ => "F32_TO_I64"
  | .f64ToI32 _ => "F64_TO_I32"
  | .f64ToI64 _ => "F64_TO_I64"
  | .i32ToF32 _ => "I32_TO_F32"
  | .i32ToF64 _ => "I32_TO_F64"
  | .i64ToF32 _ => "I64_TO_F32"
  | .i64ToF64 _ => "I64_TO_F64"
  | .f32ToF64 _ => "F32_TO_F64"
  | .f64ToF32 _ => "F64_TO_F32"
  | .f32ToF32 _ => "F32_TO_F32"
  | .f64ToF64 _ => "F64_TO_F64"
  | .shl32 _ _ => "SHL32"
  | .shrs32 _ _ => "SHRS32"
  | .shru32 _ _ => "SHRU32"
  | .shl64 _ _ => "SHL64"
  | .shrs64 _ _ => "SHRS64"
  | .shru64 _ _ => "SHRU64"
  | .rem32 _ _ => "REM32"
  | .rem64 _ _ => "REM64"
  | .frem32 _ _ => "FREM32"
  | .frem64 _ _ => "FREM64"
  | .hashClr => "HASH_CLR"
  | .hashStep _ => "HASH_STEP"
  | .hashRead => "HASH_READ"
  | .c32New => "C32_NEW"
  | .c32GetAdd _ => "C32_GETADD"
  | .c64New => "C64_NEW"
  | .c64GetAdd _ => "C64_GETADD"

/-- The "result type" column of R44. -/
def Instr.resultType : Instr → NumType
  | .i32ToI64 _ => .int64
  | .i64ToI32 _ => .int32
  | .i32ToI32 _ => .int32
  | .i64ToI64 _ => .int64
  | .f32ToI32 _ => .int32
  | .f32ToI64 _ => .int64
  | .f64ToI32 _ => .int32
  | .f64ToI64 _ => .int64
  | .i32ToF32 _ => .float32
  | .i32ToF64 _ => .float64
  | .i64ToF32 _ => .float32
  | .i64ToF64 _ => .float64
  | .f32ToF64 _ => .float64
  | .f64ToF32 _ => .float32
  | .f32ToF32 _ => .float32
  | .f64ToF64 _ => .float64
  | .shl32 _ _ => .int32
  | .shrs32 _ _ => .int32
  | .shru32 _ _ => .int32
  | .shl64 _ _ => .int64
  | .shrs64 _ _ => .int64
  | .shru64 _ _ => .int64
  | .rem32 _ _ => .int32
  | .rem64 _ _ => .int64
  | .frem32 _ _ => .float32
  | .frem64 _ _ => .float64
  | .hashClr => .int32
  | .hashStep _ => .int32
  | .hashRead => .int32
  | .c32New => .int32
  | .c32GetAdd _ => .int32
  | .c64New => .int64
  | .c64GetAdd _ => .int64

/-- The "operands" column of R44, in the order of the table. -/
def Instr.operandKinds : Instr → List OperandKind
  | .i32ToI64 _ => [.num .int32]
  | .i64ToI32 _ => [.num .int64]
  | .i32ToI32 _ => [.num .int32]
  | .i64ToI64 _ => [.num .int64]
  | .f32ToI32 _ => [.num .float32]
  | .f32ToI64 _ => [.num .float32]
  | .f64ToI32 _ => [.num .float64]
  | .f64ToI64 _ => [.num .float64]
  | .i32ToF32 _ => [.num .int32]
  | .i32ToF64 _ => [.num .int32]
  | .i64ToF32 _ => [.num .int64]
  | .i64ToF64 _ => [.num .int64]
  | .f32ToF64 _ => [.num .float32]
  | .f64ToF32 _ => [.num .float64]
  | .f32ToF32 _ => [.num .float32]
  | .f64ToF64 _ => [.num .float64]
  | .shl32 _ _ => [.num .int32, .amount]
  | .shrs32 _ _ => [.num .int32, .amount]
  | .shru32 _ _ => [.num .int32, .amount]
  | .shl64 _ _ => [.num .int64, .amount]
  | .shrs64 _ _ => [.num .int64, .amount]
  | .shru64 _ _ => [.num .int64, .amount]
  | .rem32 _ _ => [.num .int32, .num .int32]
  | .rem64 _ _ => [.num .int64, .num .int64]
  | .frem32 _ _ => [.num .float32, .num .float32]
  | .frem64 _ _ => [.num .float64, .num .float64]
  | .hashClr => []
  | .hashStep _ => [.codeUnit]
  | .hashRead => []
  | .c32New => []
  | .c32GetAdd _ => [.num .int32]
  | .c64New => []
  | .c64GetAdd _ => [.num .int64]

end Sys2Proof
end

