-- ==== Sys2Proof/WellFormed.lean ====
section
/-!
DEFINITION. Which requests are commands, by the FIELDS of the opcode (30_encoding.md R41, R43, R45, R46), written
apart from the decoder's list of opcodes. Nothing else of a request is checked: every bus value is accepted,
whatever its bits (20_memory.md R34), so every term of `Instr` is well formed.
-/

namespace Sys2Proof

/-- The `fn` field of an opcode is one its `unit` field allows: R45 for units 0 to 5, the rows of R44 for the hash
and the counters, nothing for units 9 to 15 (R43). -/
def opcodeWellFormed (op : Opcode) : Bool :=
  let unit := op.extractLsb' 4 4
  let fn := op.extractLsb' 0 4
  if unit ≤ 3 ∨ unit = 5 then fn.extractLsb' 2 2 == 0
  else if unit = 4 then fn.getLsbD 3 == false && fn.extractLsb' 0 2 != 3
  else if unit = 6 then fn ≤ 2
  else if unit = 7 ∨ unit = 8 then fn ≤ 1
  else false

/-- A request is well formed when its opcode is: the buses are never looked at (R47). -/
def Request.wellFormed (r : Request) : Bool := opcodeWellFormed r.op

end Sys2Proof
end

