-- ==== Sys2Proof/Decode.lean ====
section
/-!
DEFINITION. Decoding and encoding of commands (30_encoding.md R41, R44, R46, R47). The decoder looks only at the
opcode, never at the buses, and answers for every one of the 256 opcodes. The encoder follows it.
-/

namespace Sys2Proof

/-- The `unit` field of an opcode, op[7:4] (R41). -/
def unitField (op : Opcode) : Nat := (op.extractLsb' 4 4).toNat

/-- The command a request carries (R44), or why it carries none (R46). -/
def decode (r : Request) : Except Reject Instr :=
  match r.op.toNat with
  | 0x00 => .ok (.i32ToI64 r.a)
  | 0x01 => .ok (.i64ToI32 r.a)
  | 0x02 => .ok (.i32ToI32 r.a)
  | 0x03 => .ok (.i64ToI64 r.a)
  | 0x10 => .ok (.f32ToI32 r.a)
  | 0x11 => .ok (.f32ToI64 r.a)
  | 0x12 => .ok (.f64ToI32 r.a)
  | 0x13 => .ok (.f64ToI64 r.a)
  | 0x20 => .ok (.i32ToF32 r.a)
  | 0x21 => .ok (.i32ToF64 r.a)
  | 0x22 => .ok (.i64ToF32 r.a)
  | 0x23 => .ok (.i64ToF64 r.a)
  | 0x30 => .ok (.f32ToF64 r.a)
  | 0x31 => .ok (.f64ToF32 r.a)
  | 0x32 => .ok (.f32ToF32 r.a)
  | 0x33 => .ok (.f64ToF64 r.a)
  | 0x40 => .ok (.shl32 r.a r.b)
  | 0x41 => .ok (.shrs32 r.a r.b)
  | 0x42 => .ok (.shru32 r.a r.b)
  | 0x44 => .ok (.shl64 r.a r.b)
  | 0x45 => .ok (.shrs64 r.a r.b)
  | 0x46 => .ok (.shru64 r.a r.b)
  | 0x50 => .ok (.rem32 r.a r.b)
  | 0x51 => .ok (.rem64 r.a r.b)
  | 0x52 => .ok (.frem32 r.a r.b)
  | 0x53 => .ok (.frem64 r.a r.b)
  | 0x60 => .ok .hashClr
  | 0x61 => .ok (.hashStep r.b)
  | 0x62 => .ok .hashRead
  | 0x70 => .ok .c32New
  | 0x71 => .ok (.c32GetAdd r.b)
  | 0x80 => .ok .c64New
  | 0x81 => .ok (.c64GetAdd r.b)
  | _ => .error (if 9 ≤ unitField r.op then .reservedUnit r.op else .reservedFunction r.op)

/-- The opcode of a command (R44). -/
def Instr.opcode : Instr → Opcode
  | .i32ToI64 _ => 0x00
  | .i64ToI32 _ => 0x01
  | .i32ToI32 _ => 0x02
  | .i64ToI64 _ => 0x03
  | .f32ToI32 _ => 0x10
  | .f32ToI64 _ => 0x11
  | .f64ToI32 _ => 0x12
  | .f64ToI64 _ => 0x13
  | .i32ToF32 _ => 0x20
  | .i32ToF64 _ => 0x21
  | .i64ToF32 _ => 0x22
  | .i64ToF64 _ => 0x23
  | .f32ToF64 _ => 0x30
  | .f64ToF32 _ => 0x31
  | .f32ToF32 _ => 0x32
  | .f64ToF64 _ => 0x33
  | .shl32 _ _ => 0x40
  | .shrs32 _ _ => 0x41
  | .shru32 _ _ => 0x42
  | .shl64 _ _ => 0x44
  | .shrs64 _ _ => 0x45
  | .shru64 _ _ => 0x46
  | .rem32 _ _ => 0x50
  | .rem64 _ _ => 0x51
  | .frem32 _ _ => 0x52
  | .frem64 _ _ => 0x53
  | .hashClr => 0x60
  | .hashStep _ => 0x61
  | .hashRead => 0x62
  | .c32New => 0x70
  | .c32GetAdd _ => 0x71
  | .c64New => 0x80
  | .c64GetAdd _ => 0x81

/-- The request that carries a command: its opcode, the buses it reads, and 0 on a bus it does not read (the
convention of 95_test_vectors.md section 3; R18 says that the block ignores that bus). -/
def encode (i : Instr) : Request :=
  match i with
  | .i32ToI64 a => ⟨i.opcode, a, 0⟩
  | .i64ToI32 a => ⟨i.opcode, a, 0⟩
  | .i32ToI32 a => ⟨i.opcode, a, 0⟩
  | .i64ToI64 a => ⟨i.opcode, a, 0⟩
  | .f32ToI32 a => ⟨i.opcode, a, 0⟩
  | .f32ToI64 a => ⟨i.opcode, a, 0⟩
  | .f64ToI32 a => ⟨i.opcode, a, 0⟩
  | .f64ToI64 a => ⟨i.opcode, a, 0⟩
  | .i32ToF32 a => ⟨i.opcode, a, 0⟩
  | .i32ToF64 a => ⟨i.opcode, a, 0⟩
  | .i64ToF32 a => ⟨i.opcode, a, 0⟩
  | .i64ToF64 a => ⟨i.opcode, a, 0⟩
  | .f32ToF64 a => ⟨i.opcode, a, 0⟩
  | .f64ToF32 a => ⟨i.opcode, a, 0⟩
  | .f32ToF32 a => ⟨i.opcode, a, 0⟩
  | .f64ToF64 a => ⟨i.opcode, a, 0⟩
  | .shl32 a b => ⟨i.opcode, a, b⟩
  | .shrs32 a b => ⟨i.opcode, a, b⟩
  | .shru32 a b => ⟨i.opcode, a, b⟩
  | .shl64 a b => ⟨i.opcode, a, b⟩
  | .shrs64 a b => ⟨i.opcode, a, b⟩
  | .shru64 a b => ⟨i.opcode, a, b⟩
  | .rem32 a b => ⟨i.opcode, a, b⟩
  | .rem64 a b => ⟨i.opcode, a, b⟩
  | .frem32 a b => ⟨i.opcode, a, b⟩
  | .frem64 a b => ⟨i.opcode, a, b⟩
  | .hashClr => ⟨i.opcode, 0, 0⟩
  | .hashStep b => ⟨i.opcode, 0, b⟩
  | .hashRead => ⟨i.opcode, 0, 0⟩
  | .c32New => ⟨i.opcode, 0, 0⟩
  | .c32GetAdd b => ⟨i.opcode, 0, b⟩
  | .c64New => ⟨i.opcode, 0, 0⟩
  | .c64GetAdd b => ⟨i.opcode, 0, b⟩

/-- The request as one word of 8 + 64 + 64 bits (R35): the opcode in bits 7..0, bus `a` in 71..8, bus `b` in
135..72. The order of the three is this model's (assumption log 3): R18 carries them as three fields. -/
def Request.toWord (r : Request) : BitVec 136 := r.b ++ r.a ++ r.op

/-- The request that a word of 136 bits lays out. -/
def Request.ofWord (w : BitVec 136) : Request :=
  ⟨w.extractLsb' 0 8, w.extractLsb' 8 64, w.extractLsb' 72 64⟩

/-- The word of a command. -/
def encodeWord (i : Instr) : BitVec 136 := (encode i).toWord

/-- The command of a word. -/
def decodeWord (w : BitVec 136) : Except Reject Instr := decode (Request.ofWord w)

/-- The request given by the low `nbits` bits of `w`, every bit above them 0. -/
def requestOfTableWord (nbits w : Nat) : Request := Request.ofWord (BitVec.ofNat 136 (w % 2 ^ nbits))

/-- The host's question: what the decoder reads from a word numbered as the opcode table numbers it. -/
def decodeTableWord (nbits w : Nat) : Option Instr :=
  match decode (requestOfTableWord nbits w) with
  | .ok i => some i
  | .error _ => none

/-- The 33 defined opcodes, in the order of R44. -/
def definedOpcodes : List Opcode :=
  [0x00, 0x01, 0x02, 0x03] ++
  [0x10, 0x11, 0x12, 0x13] ++
  [0x20, 0x21, 0x22, 0x23] ++
  [0x30, 0x31, 0x32, 0x33] ++
  [0x40, 0x41, 0x42, 0x44, 0x45, 0x46] ++
  [0x50, 0x51, 0x52, 0x53] ++
  [0x60, 0x61, 0x62] ++
  [0x70, 0x71] ++
  [0x80, 0x81]

end Sys2Proof
end

