-- ==== Sys2Proof/Config.lean ====
section
/-!
DEFINITION. The open parameters of the block (00_scope.md R5): what the spec leaves to the implementation. Each is
an opaque constant, so nothing in Lean can evaluate it and every claim holds whatever it is.
-/

namespace Sys2Proof

/-- What `P_NAN32(op, a, b)` of R5 chooses: the sign of the NaN and its fraction LESS ONE, so that the choices are
exactly the binary32 patterns with all exponent bits one and a fraction that is not zero (D6, U1: the spec
guarantees no more). Free value, assumption log 1. -/
opaque Config.nan32 : Opcode → Bus → Bus → Bool × Fin 8388607

/-- What `P_NAN64(op, a, b)` of R5 chooses: sign, and the 52-bit fraction less one. Free value, assumption log 1. -/
opaque Config.nan64 : Opcode → Bus → Bus → Bool × Fin 4503599627370495

/-- `P_LATENCY` of R5: the time from request to response. R120 says that no rule depends on it, so no definition
of this model reads it; it stands here because R5 lists it among the parameters. Assumption log 2. -/
opaque Config.latency : Nat

end Sys2Proof
end

