-- ==== Sys2Proof/Machine/State.lean ====
section
/-!
DEFINITION. The state of the machine: the block's three registers (10_state.md R14), and its command port (R13, R18,
R21) as plain data, which is what the requester has still to issue and what it has been answered.
-/

namespace Sys2Proof.Machine

/-- The response to one command (10_state.md R21; 60_exceptions.md R102, R103): a status, and a result bus only
when the status is OK. Status code 3 is never returned, so it has no constructor. -/
inductive Response where
  | ok (r : Bus)      -- the command completed, with the result bus `r` (R20)
  | divideByZero      -- REM32 or REM64 with a zero divisor (R105)
  | illegalCommand    -- a reserved opcode (R104)
deriving DecidableEq, Repr

/-- What the outside does to the block: a command on the port (R13), or a reset, which R115 places between commands. -/
inductive PortInput where
  | command (r : Request)
  | reset
deriving DecidableEq, Repr

/-- The state. R14: "exactly three registers". The two lists are the command port seen over time, not storage in the
block (R40): the one requester's (R13) inputs in the order of issue (R36), and its responses, oldest first. -/
structure State where
  /-- `CTR32`, the value of Counter32 (R14, R22). -/
  ctr32 : BitVec 32
  /-- `CTR64`, the value of Counter64 (R14, R23). -/
  ctr64 : BitVec 64
  /-- `HASH`, the accumulator of the rolling hash (R14, R24). -/
  hash : BitVec 32
  /-- What the requester has still to issue, the next first (R13, R36; assumption log 4). -/
  inputs : List PortInput
  /-- The responses the requester has received, in the order of issue (R36; assumption log 4). -/
  responses : List Response
deriving DecidableEq, Repr

/-- The reasons the machine stops with a fault: NONE. The block has no trap mechanism (60_exceptions.md R100), every
command completes with a response (R121), and an error is a status in a response, which is a next state. No
definition raises a fault, and none can, which is safe: nothing is hidden behind a stop. -/
inductive Fault where
deriving DecidableEq, Repr

/-- The reasons an instruction is refused. -/
inductive Refusal where
  /-- An instruction that has no meaning in this model yet. `exec` alone could answer it, and no arm does: all 33
  commands have their meaning. Safe: the machine would stop where the hardware goes on. -/
  | notModelled (mnemonic : String)
deriving DecidableEq, Repr

/-- The answer of a step or of a meaning. -/
abbrev Answer := Host.Outcome State Fault Refusal

/-- The state after reset (70_reset_and_hazards.md R115): the three registers 0, no command issued and none
answered. -/
def State.reset : State :=
  { ctr32 := 0, ctr64 := 0, hash := 0, inputs := [], responses := [] }

end Sys2Proof.Machine
end

