-- ==== Sys2Proof/Machine/Flags.lean ====
section
/-!
DEFINITION. The block has NO flags: no condition code, and no IEEE-754 exception flag (10_state.md R27). What a command
reports beside its result is the status of its response (60_exceptions.md R102), which this file gives as the code
on the port.
-/

namespace Sys2Proof.Machine

/-- The status code of a response, 2 bits (R102). -/
def Response.status : Response → BitVec 2
  | .ok _ => 0
  | .divideByZero => 1
  | .illegalCommand => 2

/-- The result value of a response: there is one when the status is OK, and none otherwise (R21, R103). -/
def Response.result? : Response → Option Bus
  | .ok r => some r
  | .divideByZero => none
  | .illegalCommand => none

end Sys2Proof.Machine
end

