-- ==== Sys2Proof/Machine/Operands.lean ====
section
/-!
DEFINITION. How an operand is taken from its bus (10_state.md R19, 30_encoding.md R42) and how a result is placed on the
result bus (10_state.md R20): every operand form and every result form the block has.
-/

namespace Sys2Proof.Machine

/-- The low half of a bus, `x[31:0]`: all that a 32-bit operand sees of it (R19). -/
def low32 (x : Bus) : BitVec 32 := x.extractLsb' 0 32

/-- The Int32 operand on a bus, `sval_32(x[31:0])` (R19). -/
def int32Operand (x : Bus) : Int := (low32 x).toInt

/-- The Int64 operand on a bus, `sval_64(x[63:0])` (R19). -/
def int64Operand (x : Bus) : Int := x.toInt

/-- The Float32 operand on a bus: the pattern `x[31:0]` (R19). -/
def float32Operand (x : Bus) : BitVec 32 := low32 x

/-- The Float64 operand on a bus: the pattern `x[63:0]` (R19). -/
def float64Operand (x : Bus) : BitVec 64 := x

/-- The effective shift amount at width 32, `uval(b[4:0])` (44_shift.md R74). -/
def shiftAmount32 (b : Bus) : Nat := (b.extractLsb' 0 5).toNat

/-- The effective shift amount at width 64, `uval(b[5:0])` (44_shift.md R74). -/
def shiftAmount64 (b : Bus) : Nat := (b.extractLsb' 0 6).toNat

/-- The code unit on a bus, `b[15:0]` (46_string_hash.md R91). -/
def codeUnitOperand (b : Bus) : CodeUnit := b.extractLsb' 0 16

/-- A result of one of the four types (00_scope.md R10): an integer value, or a float pattern. -/
inductive Result where
  | int32 (z : Int)
  | int64 (z : Int)
  | float32 (v : BitVec 32)
  | float64 (v : BitVec 64)
deriving DecidableEq, Repr

/-- A result on the result bus (R20): an Int32 reduced to 32 bits and sign-extended, an Int64 reduced to 64 bits, a
Float32 pattern zero-extended, a Float64 pattern as it is. -/
def Result.place : Result → Bus
  | .int32 z => (bits32 z).signExtend 64
  | .int64 z => bits64 z
  | .float32 v => v.setWidth 64
  | .float64 v => v

/-- The type of a result. -/
def Result.numType : Result → NumType
  | .int32 _ => .int32
  | .int64 _ => .int64
  | .float32 _ => .float32
  | .float64 _ => .float64

end Sys2Proof.Machine
end

