-- ==== Sys2Proof/Machine/Ops.lean ====
section
/-!
DEFINITION. The named operations of 00_scope.md R7: ending a command with a result or with an error, and reset.
Taking an exception, on this block, is `raise`: no register is saved, no mode changes and control goes nowhere
(60_exceptions.md R100); the status travels in the response and the registers stay as they were (R103). There is no
return from it (R108): the block accepts the next command as after any other.
-/

namespace Sys2Proof.Machine

/-- The requester receives the response to its command (10_state.md R13), after those of every earlier one (R36). -/
def State.answer (s : State) (r : Response) : State := { s with responses := s.responses ++ [r] }

/-- `respond(T, v)` of R7: the command ends with status OK and its result on the result bus. -/
def respond (res : Result) (s : State) : Answer := .next (s.answer (.ok res.place))

/-- The two errors a command can end with (60_exceptions.md R102). -/
inductive CommandError where
  | divideByZero
  | illegalCommand
deriving DecidableEq, Repr

/-- The response that carries an error: the status alone (R103). -/
def CommandError.response : CommandError → Response
  | .divideByZero => .divideByZero
  | .illegalCommand => .illegalCommand

/-- `raise` of R7: the command ends with that status and no result, and writes no register (R103). -/
def raise (e : CommandError) (s : State) : Answer := .next (s.answer e.response)

/-- Reset (70_reset_and_hazards.md R115): the three registers become 0. The requester receives no response for it. -/
def State.resetRegisters (s : State) : State := { s with ctr32 := 0, ctr64 := 0, hash := 0 }

/-- The registers as a triple: the whole architectural state of the block (10_state.md R14). -/
def State.registers (s : State) : BitVec 32 × BitVec 64 × BitVec 32 := (s.ctr32, s.ctr64, s.hash)

end Sys2Proof.Machine
end

