-- ==== Sys2Proof/Machine/Counter.lean ====
section
/-!
DEFINITION. Units 7 and 8: the counters (47_counters.md R94 to R98). A GETADD answers the value the counter had and adds the
delta to it, wrapping.
-/

namespace Sys2Proof.Machine

/-- C32_NEW (R95). -/
def execC32New (s : State) : Answer := respond (.int32 0) { s with ctr32 := 0 }

/-- C32_GETADD (R96). -/
def execC32GetAdd (b : Bus) (s : State) : Answer :=
  respond (.int32 s.ctr32.toInt) { s with ctr32 := BitVec.ofNat 32 (s.ctr32.toNat + (low32 b).toNat) }

/-- C64_NEW (R97). -/
def execC64New (s : State) : Answer := respond (.int64 0) { s with ctr64 := 0 }

/-- C64_GETADD (R98). -/
def execC64GetAdd (b : Bus) (s : State) : Answer :=
  respond (.int64 s.ctr64.toInt) { s with ctr64 := BitVec.ofNat 64 (s.ctr64.toNat + b.toNat) }

end Sys2Proof.Machine
end

