-- ==== Sys2Proof/Machine/Float.lean ====
section
/-!
DEFINITION. IEEE-754 values as the spec fixes them (10_state.md R16, R17): decoding a pattern, encoding an exact value,
rounding to nearest with ties to even, truncation, and the NaN patterns left open (00_scope.md R5). A finite value is
held exactly, as a sign, a natural number and a power of two; all arithmetic is exact on Nat and Int.
-/

namespace Sys2Proof.Machine

/-- A binary format (R17): precision `p`, and the exponents `emin` and `emax` of its normal numbers. -/
structure FpFormat where
  p    : Nat
  emin : Int
  emax : Int
deriving DecidableEq, Repr

/-- binary32 (R17). -/
def binary32 : FpFormat := { p := 24, emin := -126, emax := 127 }

/-- binary64 (R17). -/
def binary64 : FpFormat := { p := 53, emin := -1022, emax := 1023 }

/-- The exponent of the smallest spacing of a format, `emin - p + 1`: -149 and -1074 (R16). -/
def FpFormat.lsb (f : FpFormat) : Int := f.emin - f.p + 1

/-- The exponent field of the infinities and NaNs: 255 and 2047 (R16). -/
def FpFormat.special (f : FpFormat) : Nat := (2 * f.emax + 1).toNat

/-- The fields of a pattern: sign, biased exponent, fraction (R16). -/
structure Fields where
  negative : Bool
  exponent : Nat
  fraction : Nat
deriving DecidableEq, Repr

/-- `s = v[31]`, `e = uval(v[30:23])`, `f = uval(v[22:0])` (R16). -/
def unpack32 (v : BitVec 32) : Fields :=
  ⟨v.getLsbD 31, (v.extractLsb' 23 8).toNat, (v.extractLsb' 0 23).toNat⟩

/-- `s = v[63]`, `e = uval(v[62:52])`, `f = uval(v[51:0])` (R16). -/
def unpack64 (v : BitVec 64) : Fields :=
  ⟨v.getLsbD 63, (v.extractLsb' 52 11).toNat, (v.extractLsb' 0 52).toNat⟩

/-- The binary32 pattern of its fields. -/
def pack32 (x : Fields) : BitVec 32 :=
  BitVec.ofBool x.negative ++ BitVec.ofNat 8 x.exponent ++ BitVec.ofNat 23 x.fraction

/-- The binary64 pattern of its fields. -/
def pack64 (x : Fields) : BitVec 64 :=
  BitVec.ofBool x.negative ++ BitVec.ofNat 11 x.exponent ++ BitVec.ofNat 52 x.fraction

/-- The value a pattern encodes (R8, R16). `finite n m e` is (-1)^n * m * 2^e, with `m` not 0. -/
inductive FpValue where
  | nan
  | inf (negative : Bool)
  | zero (negative : Bool)
  | finite (negative : Bool) (m : Nat) (e : Int)
deriving DecidableEq, Repr

/-- The value of the fields of a pattern (R16). No subnormal is flushed (D19). -/
def FpFormat.value (f : FpFormat) (x : Fields) : FpValue :=
  if x.exponent = f.special then
    if x.fraction = 0 then .inf x.negative else .nan
  else if x.exponent = 0 then
    if x.fraction = 0 then .zero x.negative else .finite x.negative x.fraction f.lsb
  else .finite x.negative (2 ^ (f.p - 1) + x.fraction) (f.lsb + (x.exponent - 1))

/-- `fval32` (R16). -/
def fval32 (v : BitVec 32) : FpValue := binary32.value (unpack32 v)

/-- `fval64` (R16). -/
def fval64 (v : BitVec 64) : FpValue := binary64.value (unpack64 v)

/-- `floor(m * 2^k)`, exact when it is an integer. One of the two powers is 1. -/
def scaleFloor (m : Nat) (k : Int) : Nat := m * 2 ^ k.toNat / 2 ^ (-k).toNat

/-- The integer nearest `m * 2^k`, and of two equally near the even one (R17). -/
def scaleNearest (m : Nat) (k : Int) : Nat :=
  let num := m * 2 ^ k.toNat
  let den := 2 ^ (-k).toNat
  let n := num / den
  let r := num % den
  if 2 * r < den then n else if den < 2 * r then n + 1 else n + n % 2

/-- `floor(log2 (m * 2^e))` for `m` not 0. -/
def floorLog2 (m : Nat) (e : Int) : Int := (Nat.log2 m : Int) + e

/-- The infinity of a sign (R16). -/
def FpFormat.infFields (f : FpFormat) (negative : Bool) : Fields := ⟨negative, f.special, 0⟩

/-- The zero of a sign (R16). -/
def zeroFields (negative : Bool) : Fields := ⟨negative, 0, 0⟩

/-- The pattern encoding the value (-1)^negative * m * 2^e, which must be one of the format's (R17, last sentences):
zero, subnormal below 2^emin, normal otherwise. -/
def FpFormat.encode (f : FpFormat) (negative : Bool) (m : Nat) (e : Int) : Fields :=
  if m = 0 then zeroFields negative
  else
    let l := floorLog2 m e
    if l < f.emin then ⟨negative, 0, scaleFloor m (e - f.lsb)⟩
    else ⟨negative, (l + f.emax).toNat, scaleFloor m (e - (l - f.p + 1)) - 2 ^ (f.p - 1)⟩

/-- `RNE(x)` for `x = (-1)^negative * m * 2^e`, `m` not 0 (R17). -/
def FpFormat.rne (f : FpFormat) (negative : Bool) (m : Nat) (e : Int) : Fields :=
  let q := max (floorLog2 m e) f.emin - f.p + 1
  let n := scaleNearest m (e - q)
  if n ≠ 0 ∧ f.emax + 1 ≤ floorLog2 n q then f.infFields negative
  else f.encode negative n q

/-- `trunc(x)` of a finite value (R8): toward zero. -/
def truncFinite (negative : Bool) (m : Nat) (e : Int) : Int :=
  if negative then -(scaleFloor m e : Int) else scaleFloor m e

/-- The bits of the two buses that a NaN-producing command reads: its operands (R19), and 0 on a bus it ignores (R18).
Whatever the other bits hold, the response is the same (93_implementation_defined.md U12), so a NaN pattern is a
function of these bits alone (assumption log 1). -/
def nanOperands (op : Opcode) (a b : Bus) : Bus × Bus :=
  match op.toNat with
  | 0x30 => ((low32 a).setWidth 64, 0)
  | 0x31 => (a, 0)
  | 0x52 => ((low32 a).setWidth 64, (low32 b).setWidth 64)
  | _ => (a, b)

/-- `P_NAN32(op, a, b)` of R5, the binary32 NaN pattern a NaN-producing command returns: every exponent bit one, a
fraction that is not zero, and nothing more is known of it (D6, U1). -/
def pNan32 (op : Opcode) (a b : Bus) : BitVec 32 :=
  let choice := Config.nan32 op (nanOperands op a b).1 (nanOperands op a b).2
  pack32 ⟨choice.1, 255, choice.2.val + 1⟩

/-- `P_NAN64(op, a, b)` of R5, the binary64 NaN pattern a NaN-producing command returns. -/
def pNan64 (op : Opcode) (a b : Bus) : BitVec 64 :=
  let choice := Config.nan64 op (nanOperands op a b).1 (nanOperands op a b).2
  pack64 ⟨choice.1, 2047, choice.2.val + 1⟩

end Sys2Proof.Machine
end

