-- ==== Sys2Proof/Machine/FloatConvert.lean ====
section
/-!
DEFINITION. Unit 3: Float32 and Float64 (43_ieee754_convert.md R68 to R71). A NaN operand gives a NaN whose pattern is
left open; the pattern can depend on the operand the command reads and on nothing else (assumption log 1).
-/

namespace Sys2Proof.Machine

/-- The binary64 fields of a binary32 value; `none` stands for a NaN (R68). The last branch is exact. -/
def widen (x : FpValue) : Option Fields :=
  match x with
  | .nan => none
  | .inf negative => some (binary64.infFields negative)
  | .zero negative => some (zeroFields negative)
  | .finite negative m e => some (binary64.encode negative m e)

/-- The binary32 fields of a binary64 value; `none` stands for a NaN (R69). -/
def narrow (x : FpValue) : Option Fields :=
  match x with
  | .nan => none
  | .inf negative => some (binary32.infFields negative)
  | .zero negative => some (zeroFields negative)
  | .finite negative m e => some (binary32.rne negative m e)

/-- F32_TO_F64 (R68). -/
def execF32ToF64 (a : Bus) (s : State) : Answer :=
  respond (.float64 ((widen (fval32 (float32Operand a))).elim (pNan64 0x30 a 0) pack64)) s

/-- F64_TO_F32 (R69). -/
def execF64ToF32 (a : Bus) (s : State) : Answer :=
  respond (.float32 ((narrow (fval64 (float64Operand a))).elim (pNan32 0x31 a 0) pack32)) s

/-- F32_TO_F32 (R70): the pattern unchanged, NaNs included. -/
def execF32ToF32 (a : Bus) (s : State) : Answer := respond (.float32 (float32Operand a)) s

/-- F64_TO_F64 (R71): the pattern unchanged, NaNs included. -/
def execF64ToF64 (a : Bus) (s : State) : Answer := respond (.float64 (float64Operand a)) s

end Sys2Proof.Machine
end

