-- ==== Sys2Proof/Machine/FloatToInt.lean ====
section
/-!
DEFINITION. Unit 1: float to integer (41_float_to_int.md R56 to R61): truncate toward zero, then clamp; NaN gives 0.
-/

namespace Sys2Proof.Machine

/-- The greatest integer of width `n`, `2^(n-1) - 1`. -/
def intMax (n : Nat) : Int := 2 ^ (n - 1) - 1

/-- The least integer of width `n`, `-2^(n-1)`. -/
def intMin (n : Nat) : Int := -2 ^ (n - 1)

/-- `F2I_N(x)` (R56). -/
def floatToInt (n : Nat) (x : FpValue) : Int :=
  match x with
  | .nan => 0
  | .inf false => intMax n
  | .inf true => intMin n
  | .zero _ => 0
  | .finite negative m e =>
    let t := truncFinite negative m e
    if t > intMax n then intMax n else if t < intMin n then intMin n else t

/-- F32_TO_I32 (R57). -/
def execF32ToI32 (a : Bus) (s : State) : Answer :=
  respond (.int32 (floatToInt 32 (fval32 (float32Operand a)))) s

/-- F32_TO_I64 (R58). -/
def execF32ToI64 (a : Bus) (s : State) : Answer :=
  respond (.int64 (floatToInt 64 (fval32 (float32Operand a)))) s

/-- F64_TO_I32 (R59). -/
def execF64ToI32 (a : Bus) (s : State) : Answer :=
  respond (.int32 (floatToInt 32 (fval64 (float64Operand a)))) s

/-- F64_TO_I64 (R60). -/
def execF64ToI64 (a : Bus) (s : State) : Answer :=
  respond (.int64 (floatToInt 64 (fval64 (float64Operand a)))) s

end Sys2Proof.Machine
end

