-- ==== Sys2Proof/Machine/Hash.lean ====
section
/-!
DEFINITION. Unit 6: the rolling string hash (46_string_hash.md R89 to R92).
-/

namespace Sys2Proof.Machine

/-- One step of the recurrence: `bits_32(uval_32(h) * 31 + u)`, with `u` unsigned (R91). -/
def hashNext (h : BitVec 32) (u : CodeUnit) : BitVec 32 := BitVec.ofNat 32 (h.toNat * 31 + u.toNat)

/-- HASH_CLR (R90). -/
def execHashClr (s : State) : Answer := respond (.int32 0) { s with hash := 0 }

/-- HASH_STEP (R91): the response is the new value of `HASH`. -/
def execHashStep (b : Bus) (s : State) : Answer :=
  let h := hashNext s.hash (codeUnitOperand b)
  respond (.int32 h.toInt) { s with hash := h }

/-- HASH_READ (R92). -/
def execHashRead (s : State) : Answer := respond (.int32 s.hash.toInt) s

end Sys2Proof.Machine
end

