-- ==== Sys2Proof/Machine/IntConvert.lean ====
section
/-!
DEFINITION. Unit 0: the integer conversions (40_int_conversion.md R50 to R54). Narrowing keeps the low 32 bits and
widening sign-extends (90_conflicts.md C1); none can fail.
-/

namespace Sys2Proof.Machine

/-- I32_TO_I64 (R51). -/
def execI32ToI64 (a : Bus) (s : State) : Answer := respond (.int64 (int32Operand a)) s

/-- I64_TO_I32 (R52): "keep the low 32 bits", which is what the Int32 reading of the bus does. -/
def execI64ToI32 (a : Bus) (s : State) : Answer := respond (.int32 (low32 a).toInt) s

/-- I32_TO_I32 (R53). -/
def execI32ToI32 (a : Bus) (s : State) : Answer := respond (.int32 (int32Operand a)) s

/-- I64_TO_I64 (R54). -/
def execI64ToI64 (a : Bus) (s : State) : Answer := respond (.int64 (int64Operand a)) s

end Sys2Proof.Machine
end

