-- ==== Sys2Proof/Machine/IntToFloat.lean ====
section
/-!
DEFINITION. Unit 2: integer to float (42_int_to_float.md R62 to R66): +0 for 0, otherwise rounded once, from the exact
integer, to nearest with ties to even.
-/

namespace Sys2Proof.Machine

/-- `I2F(z)` for a format (R62). -/
def intToFloat (f : FpFormat) (z : Int) : Fields :=
  if z = 0 then zeroFields false else f.rne (decide (z < 0)) z.natAbs 0

/-- I32_TO_F32 (R63). -/
def execI32ToF32 (a : Bus) (s : State) : Answer :=
  respond (.float32 (pack32 (intToFloat binary32 (int32Operand a)))) s

/-- I32_TO_F64 (R64). -/
def execI32ToF64 (a : Bus) (s : State) : Answer :=
  respond (.float64 (pack64 (intToFloat binary64 (int32Operand a)))) s

/-- I64_TO_F32 (R65). -/
def execI64ToF32 (a : Bus) (s : State) : Answer :=
  respond (.float32 (pack32 (intToFloat binary32 (int64Operand a)))) s

/-- I64_TO_F64 (R66). -/
def execI64ToF64 (a : Bus) (s : State) : Answer :=
  respond (.float64 (pack64 (intToFloat binary64 (int64Operand a)))) s

end Sys2Proof.Machine
end

