-- ==== Sys2Proof/Machine/Remainder.lean ====
section
/-!
DEFINITION. Unit 5: remainder (45_remainder.md R82 to R87): the truncating integer remainder, which raises DivideByZero
on a zero divisor, and the exact C `fmod` of two floats, which never errs (90_conflicts.md C2, C3).
-/

namespace Sys2Proof.Machine

/-- `tdiv(n, d)` of 00_scope.md R9: the quotient rounded toward zero. -/
def truncDiv (n d : Int) : Int := n.sign * d.sign * (n.natAbs / d.natAbs : Nat)

/-- `trem(n, d)` of 00_scope.md R9. -/
def truncRem (n d : Int) : Int := n - d * truncDiv n d

/-- `IREM_N(x, y)` of R82; `place` makes the result of width N. -/
def intRemainder (place : Int → Result) (x y : Int) (s : State) : Answer :=
  if y = 0 then raise .divideByZero s else respond (place (truncRem x y)) s

/-- The exact remainder of two finite values by the quotient truncated toward zero, for magnitudes `mx * 2^ex` and
`my * 2^ey` brought to the smaller of the two exponents (R85, last branch). The sign is the dividend's, also of
a zero result. -/
def finiteRemainder (f : FpFormat) (negative : Bool) (mx : Nat) (ex : Int) (my : Nat) (ey : Int) : Fields :=
  let e := min ex ey
  f.encode negative (scaleFloor mx (ex - e) % scaleFloor my (ey - e)) e

/-- `FMOD(x, y)` of R85, from the fields of the two patterns; `none` stands for a NaN. -/
def floatRemainder (f : FpFormat) (x y : Fields) : Option Fields :=
  match f.value x, f.value y with
  | .nan, _ => none
  | _, .nan => none
  | _, .zero _ => none
  | .inf _, _ => none
  | _, .inf _ => some x
  | .zero _, _ => some x
  | .finite negative mx ex, .finite _ my ey => some (finiteRemainder f negative mx ex my ey)

/-- REM32 (R83). -/
def execRem32 (a b : Bus) (s : State) : Answer := intRemainder .int32 (int32Operand a) (int32Operand b) s

/-- REM64 (R84). -/
def execRem64 (a b : Bus) (s : State) : Answer := intRemainder .int64 (int64Operand a) (int64Operand b) s

/-- FREM32 (R86). -/
def execFrem32 (a b : Bus) (s : State) : Answer :=
  respond (.float32 ((floatRemainder binary32 (unpack32 (float32Operand a)) (unpack32 (float32Operand b))).elim
    (pNan32 0x52 a b) pack32)) s

/-- FREM64 (R87). -/
def execFrem64 (a b : Bus) (s : State) : Answer :=
  respond (.float64 ((floatRemainder binary64 (unpack64 (float64Operand a)) (unpack64 (float64Operand b))).elim
    (pNan64 0x53 a b) pack64)) s

end Sys2Proof.Machine
end

