-- ==== Sys2Proof/Machine/Shift.lean ====
section
/-!
DEFINITION. Unit 4: the shifts (44_shift.md R73 to R80). The amount is masked to the width of the opcode (R74); each result
is computed exactly and reduced to the width.
-/

namespace Sys2Proof.Machine

/-- SHL32 (R75). -/
def execShl32 (a b : Bus) (s : State) : Answer :=
  respond (.int32 ((low32 a).toNat * 2 ^ shiftAmount32 b : Nat)) s

/-- SHRS32 (R76): the floor of the signed value over 2^s. -/
def execShrs32 (a b : Bus) (s : State) : Answer :=
  respond (.int32 (int32Operand a / 2 ^ shiftAmount32 b)) s

/-- SHRU32 (R77): the floor of the unsigned value over 2^s. -/
def execShru32 (a b : Bus) (s : State) : Answer :=
  respond (.int32 ((low32 a).toNat / 2 ^ shiftAmount32 b : Nat)) s

/-- SHL64 (R78). -/
def execShl64 (a b : Bus) (s : State) : Answer :=
  respond (.int64 (a.toNat * 2 ^ shiftAmount64 b : Nat)) s

/-- SHRS64 (R79). -/
def execShrs64 (a b : Bus) (s : State) : Answer :=
  respond (.int64 (int64Operand a / 2 ^ shiftAmount64 b)) s

/-- SHRU64 (R80). -/
def execShru64 (a b : Bus) (s : State) : Answer :=
  respond (.int64 (a.toNat / 2 ^ shiftAmount64 b : Nat)) s

end Sys2Proof.Machine
end

