-- ==== Sys2Proof/Machine/Dispatch.lean ====
section
/-!
DEFINITION. The dispatch: one arm for each command of 30_encoding.md R44, each one call of its meaning.
-/

namespace Sys2Proof.Machine

def exec (i : Instr) (s : State) : Host.Outcome State Fault Refusal :=
  match i with
  | .i32ToI64 a => Sys2Proof.Machine.execI32ToI64 a s
  | .i64ToI32 a => Sys2Proof.Machine.execI64ToI32 a s
  | .i32ToI32 a => Sys2Proof.Machine.execI32ToI32 a s
  | .i64ToI64 a => Sys2Proof.Machine.execI64ToI64 a s
  | .f32ToI32 a => Sys2Proof.Machine.execF32ToI32 a s
  | .f32ToI64 a => Sys2Proof.Machine.execF32ToI64 a s
  | .f64ToI32 a => Sys2Proof.Machine.execF64ToI32 a s
  | .f64ToI64 a => Sys2Proof.Machine.execF64ToI64 a s
  | .i32ToF32 a => Sys2Proof.Machine.execI32ToF32 a s
  | .i32ToF64 a => Sys2Proof.Machine.execI32ToF64 a s
  | .i64ToF32 a => Sys2Proof.Machine.execI64ToF32 a s
  | .i64ToF64 a => Sys2Proof.Machine.execI64ToF64 a s
  | .f32ToF64 a => Sys2Proof.Machine.execF32ToF64 a s
  | .f64ToF32 a => Sys2Proof.Machine.execF64ToF32 a s
  | .f32ToF32 a => Sys2Proof.Machine.execF32ToF32 a s
  | .f64ToF64 a => Sys2Proof.Machine.execF64ToF64 a s
  | .shl32 a b => Sys2Proof.Machine.execShl32 a b s
  | .shrs32 a b => Sys2Proof.Machine.execShrs32 a b s
  | .shru32 a b => Sys2Proof.Machine.execShru32 a b s
  | .shl64 a b => Sys2Proof.Machine.execShl64 a b s
  | .shrs64 a b => Sys2Proof.Machine.execShrs64 a b s
  | .shru64 a b => Sys2Proof.Machine.execShru64 a b s
  | .rem32 a b => Sys2Proof.Machine.execRem32 a b s
  | .rem64 a b => Sys2Proof.Machine.execRem64 a b s
  | .frem32 a b => Sys2Proof.Machine.execFrem32 a b s
  | .frem64 a b => Sys2Proof.Machine.execFrem64 a b s
  | .hashClr => Sys2Proof.Machine.execHashClr s
  | .hashStep b => Sys2Proof.Machine.execHashStep b s
  | .hashRead => Sys2Proof.Machine.execHashRead s
  | .c32New => Sys2Proof.Machine.execC32New s
  | .c32GetAdd b => Sys2Proof.Machine.execC32GetAdd b s
  | .c64New => Sys2Proof.Machine.execC64New s
  | .c64GetAdd b => Sys2Proof.Machine.execC64GetAdd b s

end Sys2Proof.Machine
end

