-- ==== Sys2Proof/Machine/Step.lean ====
section
/-!
DEFINITION. One step (10_state.md R13, 20_memory.md R36): the block takes the next thing on its port. A command is decoded
and executed as one indivisible step; a reserved opcode is answered IllegalCommand (60_exceptions.md R104); a
reset sets the registers (70_reset_and_hazards.md R115); with nothing on the port the block is idle and keeps its
registers (60_exceptions.md R114).
-/

namespace Sys2Proof.Machine

/-- A command on the port: what its opcode stands for, run, or IllegalCommand. -/
def runCommand (r : Request) (s : State) : Answer :=
  match decode r with
  | .ok i => exec i s
  | .error _ => raise .illegalCommand s

/-- One step of the machine. -/
def step (s : State) : Host.Outcome State Fault Refusal :=
  match s.inputs with
  | [] => .next s
  | .reset :: rest => .next (State.resetRegisters { s with inputs := rest })
  | .command r :: rest => runCommand r { s with inputs := rest }

/-- `s` with one more command before all others on the port: the one the word `w` lays out, its bits above `nbits`
all 0, so that the very next step runs it. The block fetches nothing (10_state.md R15): its requester issues the
command (assumption log 4). -/
def State.withFetchWord (s : State) (nbits w : Nat) : State :=
  { s with inputs := .command (requestOfTableWord nbits w) :: s.inputs }

end Sys2Proof.Machine
end

