-- ==== Sys2Proof/Machine/Asm.lean ====
section
/-!
DEFINITION. The assembler's notation (30_encoding.md R48) and its pseudo-instructions (R49): from a written line to
the request it stands for, and from a response to how it is written. Notation only: no step of the machine reads
this file. Text is a list of characters.
-/

namespace Sys2Proof.Machine

/-- A written operand (R48), read. -/
inductive Literal where
  | int (z : Int)             -- decimal, with an optional minus sign
  | pattern (n : Nat)         -- `0x` and hex digits: the bus pattern
  | float32 (v : BitVec 32)   -- `f32:0x` and 8 hex digits, or a decimal with the suffix `f`
  | float64 (v : BitVec 64)   -- `f64:0x` and 16 hex digits, or a decimal with the suffix `d`
  | char (u : CodeUnit)       -- a character in quotes
deriving DecidableEq, Repr

/-- The bus that holds a literal: a decimal as its two's-complement pattern on 64 bits. -/
def Literal.bus : Literal → Bus
  | .int z => bits64 z
  | .pattern n => BitVec.ofNat 64 n
  | .float32 v => v.setWidth 64
  | .float64 v => v
  | .char u => u.setWidth 64

/-- "Each operand is a literal of its type" (R48). A decimal integer lies in the range of its type; an amount and a
pattern fill the bus. -/
def Literal.fits (k : OperandKind) (l : Literal) : Bool :=
  match k, l with
  | .num .int32, .int z => decide (-2 ^ 31 ≤ z ∧ z < 2 ^ 31)
  | .num .int64, .int z => decide (-2 ^ 63 ≤ z ∧ z < 2 ^ 63)
  | .amount, .int z => decide (-2 ^ 63 ≤ z ∧ z < 2 ^ 63)
  | .codeUnit, .int z => decide (0 ≤ z ∧ z < 2 ^ 16)
  | .num .int32, .pattern n => decide (n < 2 ^ 64)
  | .num .int64, .pattern n => decide (n < 2 ^ 64)
  | .amount, .pattern n => decide (n < 2 ^ 64)
  | .codeUnit, .pattern n => decide (n < 2 ^ 64)
  | .num .float32, .float32 _ => true
  | .num .float64, .float64 _ => true
  | .codeUnit, .char _ => true
  | _, _ => false

/-- The value of a decimal digit. -/
def decDigit? (c : Char) : Option Nat :=
  if '0'.toNat ≤ c.toNat ∧ c.toNat ≤ '9'.toNat then some (c.toNat - '0'.toNat) else none

/-- The value of a hex digit. -/
def hexDigit? (c : Char) : Option Nat :=
  if 'a'.toNat ≤ c.toNat ∧ c.toNat ≤ 'f'.toNat then some (c.toNat - 'a'.toNat + 10)
  else if 'A'.toNat ≤ c.toNat ∧ c.toNat ≤ 'F'.toNat then some (c.toNat - 'A'.toNat + 10)
  else decDigit? c

/-- The digits a text begins with, in base `base`: how many there are, the number they give, and the rest. -/
def readDigits (digit? : Char → Option Nat) (base : Nat) : List Char → Nat × Nat × List Char :=
  let rec go (n acc : Nat) : List Char → Nat × Nat × List Char
    | [] => (n, acc, [])
    | c :: cs =>
      match digit? c with
      | some d => go (n + 1) (acc * base + d) cs
      | none => (n, acc, c :: cs)
  go 0 0

/-- The fields of a format that encode `num / 10^k` exactly, when the format has that value (R48: "when the value is
exact"). -/
def exactDecimal (f : FpFormat) (negative : Bool) (num k : Nat) : Option Fields :=
  if num = 0 then some (zeroFields negative)
  else if num % 5 ^ k ≠ 0 then none
  else
    let m := num / 5 ^ k
    let x := f.rne negative m (-k)
    match f.value x with
    | .finite _ m' e' =>
      if scaleFloor m' (e' - min e' (-k)) = scaleFloor m (-k - min e' (-k)) then some x else none
    | _ => none

/-- A decimal number, its sign already read: an integer, or with the suffix `f` or `d` a float. -/
def readDecimal (negative : Bool) (cs : List Char) : Option (Literal × List Char) :=
  match readDigits decDigit? 10 cs with
  | (0, _, _) => none
  | (_, whole, rest) =>
    let (k, frac, rest') :=
      match rest with
      | '.' :: more => readDigits decDigit? 10 more
      | _ => (0, 0, rest)
    let num := whole * 10 ^ k + frac
    match rest' with
    | 'f' :: more => (exactDecimal binary32 negative num k).map fun x => (.float32 (pack32 x), more)
    | 'd' :: more => (exactDecimal binary64 negative num k).map fun x => (.float64 (pack64 x), more)
    | _ => if rest.head? = some '.' then none else some (.int (if negative then -(num : Int) else num), rest')

/-- The literal a text begins with, and the rest of the text (R48). -/
def readLiteral : List Char → Option (Literal × List Char)
  | 'f' :: '3' :: '2' :: ':' :: '0' :: 'x' :: cs =>
    match readDigits hexDigit? 16 cs with
    | (8, n, rest) => some (.float32 (BitVec.ofNat 32 n), rest)
    | _ => none
  | 'f' :: '6' :: '4' :: ':' :: '0' :: 'x' :: cs =>
    match readDigits hexDigit? 16 cs with
    | (16, n, rest) => some (.float64 (BitVec.ofNat 64 n), rest)
    | _ => none
  | '0' :: 'x' :: cs =>
    match readDigits hexDigit? 16 cs with
    | (0, _, _) => none
    | (_, n, rest) => some (.pattern n, rest)
  | '\'' :: c :: '\'' :: rest => if c.toNat < 2 ^ 16 then some (.char (BitVec.ofNat 16 c.toNat), rest) else none
  | '-' :: cs => readDecimal true cs
  | cs => readDecimal false cs

/-- A text without the spaces it begins with. -/
def skipSpaces (cs : List Char) : List Char := cs.dropWhile (· == ' ')

/-- The operands of a line, one literal for each operand the command takes, with a comma between two (R48). -/
def readOperands : List OperandKind → List Char → Option (List Bus)
  | [], cs => if skipSpaces cs = [] then some [] else none
  | k :: ks, cs =>
    match readLiteral (skipSpaces cs) with
    | none => none
    | some (l, rest) =>
      if l.fits k then
        match ks, skipSpaces rest with
        | [], rest' => if rest' = [] then some [l.bus] else none
        | _ :: _, ',' :: rest' => (readOperands ks rest').map (l.bus :: ·)
        | _ :: _, _ => none
      else none

/-- The command with a mnemonic (R44), on buses of 0. -/
def commandNamed (name : List Char) : Option Instr :=
  definedOpcodes.findSome? fun op =>
    match decode ⟨op, 0, 0⟩ with
    | .ok i => if i.mnemonic.toList = name then some i else none
    | .error _ => none

/-- A command's operands on its buses, in the order of the table in R44: those that read `a` come first. -/
def requestWith (i : Instr) (operands : List Bus) : Option Request :=
  match encode i, operands with
  | r, [] => some r
  | r, [x] =>
    match i with
    | .hashStep _ => some { r with b := x }
    | .c32GetAdd _ => some { r with b := x }
    | .c64GetAdd _ => some { r with b := x }
    | _ => some { r with a := x }
  | r, [x, y] => some { r with a := x, b := y }
  | _, _ => none

/-- The request a line stands for: `MNEMONIC a, b`, an operand the command does not take left out (R48). -/
def assemble (line : List Char) : Option Request :=
  match commandNamed (line.takeWhile (· != ' ')) with
  | none => none
  | some i =>
    match readOperands i.operandKinds (line.dropWhile (· != ' ')) with
    | none => none
    | some operands => requestWith i operands

/-- The pseudo-instructions (R49). A typed conversion carries the source type its literal was written with, "never
its bits" (R49). -/
inductive Pseudo where
  | hashStr (units : List CodeUnit)
  | c32Read
  | c64Read
  | convert (src dst : NumType) (x : Bus)
deriving DecidableEq, Repr

/-- The one `<S>_TO_<D>` command of a source and a destination type (R49). -/
def conversion (src dst : NumType) (x : Bus) : Instr :=
  match src, dst with
  | .int32, .int32 => .i32ToI32 x
  | .int32, .int64 => .i32ToI64 x
  | .int32, .float32 => .i32ToF32 x
  | .int32, .float64 => .i32ToF64 x
  | .int64, .int32 => .i64ToI32 x
  | .int64, .int64 => .i64ToI64 x
  | .int64, .float32 => .i64ToF32 x
  | .int64, .float64 => .i64ToF64 x
  | .float32, .int32 => .f32ToI32 x
  | .float32, .int64 => .f32ToI64 x
  | .float32, .float32 => .f32ToF32 x
  | .float32, .float64 => .f32ToF64 x
  | .float64, .int32 => .f64ToI32 x
  | .float64, .int64 => .f64ToI64 x
  | .float64, .float32 => .f64ToF32 x
  | .float64, .float64 => .f64ToF64 x

/-- The commands a pseudo-instruction expands to, and nothing else (R49). -/
def Pseudo.expand : Pseudo → List Instr
  | .hashStr units => .hashClr :: units.map (fun u => .hashStep (u.setWidth 64)) ++ [.hashRead]
  | .c32Read => [.c32GetAdd 0]
  | .c64Read => [.c64GetAdd 0]
  | .convert src dst x => [conversion src dst x]

/-- The 16-bit code units of a character, which are those of UTF-16 (R93, general knowledge). -/
def codeUnits (c : Char) : List CodeUnit :=
  if c.toNat < 2 ^ 16 then [BitVec.ofNat 16 c.toNat]
  else [BitVec.ofNat 16 (0xD800 + (c.toNat - 2 ^ 16) / 2 ^ 10), BitVec.ofNat 16 (0xDC00 + (c.toNat - 2 ^ 16) % 2 ^ 10)]

/-- The numeric type a literal is written with. An integer literal does not show its width, so the caller gives it
(assumption log 6). -/
def Literal.numType? (intType : NumType) : Literal → Option NumType
  | .int _ => some intType
  | .pattern _ => some intType
  | .float32 _ => some .float32
  | .float64 _ => some .float64
  | .char _ => none

/-- The destination type a typed pseudo-instruction names. -/
def conversionTarget? (name : List Char) : Option NumType :=
  if name = "toInt32".toList then some .int32
  else if name = "toInt64".toList then some .int64
  else if name = "toFloat32".toList then some .float32
  else if name = "toFloat64".toList then some .float64
  else none

/-- The pseudo-instruction a line stands for (R49). -/
def readPseudo (intType : NumType) (line : List Char) : Option Pseudo :=
  let name := line.takeWhile (· != ' ')
  let rest := skipSpaces (line.dropWhile (· != ' '))
  if name = "C32_READ".toList then if rest = [] then some .c32Read else none
  else if name = "C64_READ".toList then if rest = [] then some .c64Read else none
  else if name = "HASHSTR".toList then
    match rest with
    | '"' :: cs =>
      if skipSpaces ((cs.dropWhile (· != '"')).drop 1) = [] ∧ cs.any (· == '"')
      then some (.hashStr ((cs.takeWhile (· != '"')).flatMap codeUnits)) else none
    | _ => none
  else
    match conversionTarget? name, readLiteral rest with
    | some dst, some (l, more) =>
      match l.numType? intType with
      | some src => if skipSpaces more = [] ∧ l.fits (.num src) then some (.convert src dst l.bus) else none
      | none => none
    | _, _ => none

/-- A hex digit. -/
def hexChar (n : Nat) : Char := if n < 10 then Char.ofNat (48 + n) else Char.ofNat (55 + n)

/-- The low `k` hex digits of a number, the most significant first. -/
def hexDigits : Nat → Nat → List Char
  | 0, _ => []
  | k + 1, n => hexDigits k (n / 16) ++ [hexChar (n % 16)]

/-- A response as it is written, after `->` (R48). -/
def Response.render : Response → List Char
  | .ok r => "-> 0x".toList ++ hexDigits 16 r.toNat
  | .divideByZero => "-> DivideByZero".toList
  | .illegalCommand => "-> IllegalCommand".toList

end Sys2Proof.Machine
end

