-- ==== Sys2Proof/Safety.lean ====
section
/-!
DEFINITION. The terms in which claims are made: the exact rational value of a float and rounding over the rationals
(10_state.md R16, R17), the state after a command that ends OK, what the registers must come to by the rules on raw
requests alone (the ledger), and runs.
-/

namespace Sys2Proof

/-- A command that writes a register is one of six (20_memory.md R35). -/
def Instr.writes (i : Instr) : Bool :=
  decide (i.opcode ∈ ([0x60, 0x61, 0x70, 0x71, 0x80, 0x81] : List Opcode))

end Sys2Proof

namespace Sys2Proof.Machine

/-- The factor of a sign: -1 or 1. -/
def signFactor (negative : Bool) : ℚ := if negative then -1 else 1

/-- The exact rational value of a finite float; none for an infinity or a NaN (R16). -/
def FpValue.toRat : FpValue → Option ℚ
  | .nan => none
  | .inf _ => none
  | .zero _ => some 0
  | .finite negative m e => some (signFactor negative * m * 2 ^ e)

/-- The sign of a float that is not a NaN. -/
def FpValue.negative? : FpValue → Option Bool
  | .nan => none
  | .inf negative => some negative
  | .zero negative => some negative
  | .finite negative _ _ => some negative

/-- `trunc(x)` of a rational: the nearest integer in the direction of zero (R8). -/
def truncRat (x : ℚ) : ℤ := if 0 ≤ x then ⌊x⌋ else ⌈x⌉

/-- `z` is `F2I_N` of the value `x` (R56), for width `n`. -/
def IsFloatToInt (n : Nat) (x : FpValue) (z : Int) : Prop :=
  (x = .nan → z = 0) ∧
  (x = .inf false → z = 2 ^ (n - 1) - 1) ∧
  (x = .inf true → z = -2 ^ (n - 1)) ∧
  ∀ q, x.toRat = some q → z = max (-2 ^ (n - 1)) (min (2 ^ (n - 1) - 1) (truncRat q))

/-- `m` is the integer nearest `x`, and the even one when `x` is halfway between two (R17). -/
def IsNearestTieEven (m : ℕ) (x : ℚ) : Prop :=
  |(m : ℚ) - x| ≤ 1 / 2 ∧ (|(m : ℚ) - x| = 1 / 2 → m % 2 = 0)

/-- The value `y` is `RNE(x)` for the format, `x` not 0: R17 read over the rationals. -/
def FpFormat.IsRne (f : FpFormat) (x : ℚ) (y : FpValue) : Prop :=
  ∃ m : ℕ,
    let q : ℚ := 2 ^ (max (Int.log 2 |x|) f.emin - f.p + 1)
    IsNearestTieEven m (|x| / q) ∧
    if 2 ^ (f.emax + 1) ≤ m * q then y = .inf (decide (x < 0))
    else y.negative? = some (decide (x < 0)) ∧ y.toRat = some (signFactor (decide (x < 0)) * (m * q))

/-- The value `r` is `FMOD(x, y)` (R85); `r` is a NaN where the rule says so. -/
def IsFloatRemainder (x y r : FpValue) : Prop :=
  (x = .nan ∨ y = .nan ∨ y.toRat = some 0 ∨ x = .inf false ∨ x = .inf true → r = .nan) ∧
  (∀ q n, x.toRat = some q → y = .inf n → r = x) ∧
  (∀ n q, x = .zero n → y.toRat = some q → q ≠ 0 → r = x) ∧
  (∀ p q, x.toRat = some p → y.toRat = some q → p ≠ 0 → q ≠ 0 →
    r.toRat = some (p - q * truncRat (p / q)) ∧ r.negative? = x.negative?)

/-- The state after a command that ends OK and writes no register: one more response, the result bus `r`. -/
def afterOk (s : State) (r : Bus) : State := { s with responses := s.responses ++ [.ok r] }

/-- What one input does to `CTR32`, by the rules on the raw request (R22, R95, R96, R115). -/
def ctr32After (c : BitVec 32) : PortInput → BitVec 32
  | .reset => 0
  | .command r => if r.op = 0x70 then 0 else if r.op = 0x71 then c + r.b.setWidth 32 else c

/-- What one input does to `CTR64`, by the rules on the raw request (R23, R97, R98, R115). -/
def ctr64After (c : BitVec 64) : PortInput → BitVec 64
  | .reset => 0
  | .command r => if r.op = 0x80 then 0 else if r.op = 0x81 then c + r.b else c

/-- What one input does to `HASH`, by the rules on the raw request (R24, R90, R91, R115). -/
def hashAfter (h : BitVec 32) : PortInput → BitVec 32
  | .reset => 0
  | .command r =>
    if r.op = 0x60 then 0 else if r.op = 0x61 then 31 * h + (r.b.setWidth 16).setWidth 32 else h

/-- How many responses one input is owed: one for a command (R13), none for a reset (R115). -/
def responsesOwed : PortInput → Nat
  | .reset => 0
  | .command _ => 1

/-- What a state must come to once all its inputs are taken, worked out on the raw requests and not by running the
machine: the three registers, and how many responses the requester will have received. -/
structure Ledger where
  ctr32 : BitVec 32
  ctr64 : BitVec 64
  hash : BitVec 32
  responses : Nat
deriving DecidableEq, Repr

/-- The ledger of a state. -/
def State.ledger (s : State) : Ledger :=
  { ctr32 := s.inputs.foldl ctr32After s.ctr32
    ctr64 := s.inputs.foldl ctr64After s.ctr64
    hash := s.inputs.foldl hashAfter s.hash
    responses := s.responses.length + (s.inputs.map responsesOwed).sum }

/-- The reserved opcodes, range by range as R46 lists them (30_encoding.md section 3). -/
def IsReserved (op : Opcode) : Prop :=
  (0x04 ≤ op ∧ op ≤ 0x0F) ∨ (0x14 ≤ op ∧ op ≤ 0x1F) ∨ (0x24 ≤ op ∧ op ≤ 0x2F) ∨ (0x34 ≤ op ∧ op ≤ 0x3F) ∨
  op = 0x43 ∨ op = 0x47 ∨ (0x48 ≤ op ∧ op ≤ 0x4F) ∨ (0x54 ≤ op ∧ op ≤ 0x5F) ∨ (0x63 ≤ op ∧ op ≤ 0x6F) ∨
  (0x72 ≤ op ∧ op ≤ 0x7F) ∨ (0x82 ≤ op ∧ op ≤ 0x8F) ∨ (0x90 ≤ op ∧ op ≤ 0xFF)

/-- A step is safe when it ends in a next state: the block has no fault and refuses nothing (R100, R121). -/
def SafeStep (s : State) : Prop := ∃ t, step s = .next t

/-- The pattern of a result bus is one R20 places for a type: an Int32 is sign-extended from bit 31, and the upper
half of a Float32 is 0. -/
def IsPlaced (t : NumType) (r : Bus) : Prop :=
  match t with
  | .int32 => r = (r.setWidth 32).signExtend 64
  | .int64 => True
  | .float32 => r = (r.setWidth 32).setWidth 64
  | .float64 => True

/-- The value of the hash recurrence over a sequence of code units (46_string_hash.md, `h₀ = 0`,
`hᵢ = hᵢ₋₁ * 31 + codeUnit[i]`), as an exact number, not yet reduced. -/
def hashSum (units : List CodeUnit) : Nat := units.foldl (fun h u => h * 31 + u.toNat) 0

end Sys2Proof.Machine
end

