-- ==== Sys2Proof/Certificates/Slice0/Obligations.lean ====
section
/-!
DEFINITION. What is claimed of the model, for the provers: first the machine and its encoding, then each unit, then the
rules that hold of every command. A result statement is an equation `exec i s = .next t` with the whole of `t` given,
so it says where the command completes, its result and its frame at once.
-/

open Sys2Proof Sys2Proof.Machine

/-! ## The encoding -/

/-- R41, R44: every command comes back from its word of 136 bits, with both buses at every value. -/
def Obligations.WordDecodesToEncodedCommand : Prop :=
  ∀ i : Instr, decodeWord (encodeWord i) = .ok i

/-- R44, R47: a request that decodes is the encoding of its command, but for a bus the command does not read. -/
def Obligations.DecodedRequestReencodes : Prop :=
  ∀ (r : Request) (i : Instr), decode r = .ok i →
    (encode i).op = r.op ∧
    ((encode i).a = r.a ∨ ∀ a, decode { r with a := a } = .ok i) ∧
    ((encode i).b = r.b ∨ ∀ b, decode { r with b := b } = .ok i)

/-- R46, R47: the decoder refuses exactly the reserved opcodes, whatever the buses hold. -/
def Obligations.ReservedOpcodesRefused : Prop :=
  ∀ (op : Opcode) (a b : Bus), (∃ e, decode ⟨op, a, b⟩ = .error e) ↔ IsReserved op

/-- R43, R45: a request decodes exactly when its opcode's fields are ones the rules on the fields allow. -/
def Obligations.DecodedIffFieldsAllowed : Prop :=
  ∀ r : Request, (∃ i, decode r = .ok i) ↔ r.wellFormed = true

/-- R44: a word of each unit, bit by bit from the table, is the command it stands for. -/
def Obligations.SampleWordsDecode : Prop :=
  decode ⟨0b00000001, 7, 9⟩ = .ok (.i64ToI32 7) ∧ decode ⟨0b00010010, 7, 9⟩ = .ok (.f64ToI32 7) ∧
  decode ⟨0b00100001, 7, 9⟩ = .ok (.i32ToF64 7) ∧ decode ⟨0b00110001, 7, 9⟩ = .ok (.f64ToF32 7) ∧
  decode ⟨0b01000110, 7, 9⟩ = .ok (.shru64 7 9) ∧ decode ⟨0b01010010, 7, 9⟩ = .ok (.frem32 7 9) ∧
  decode ⟨0b01100001, 7, 9⟩ = .ok (.hashStep 9) ∧ decode ⟨0b01110001, 7, 9⟩ = .ok (.c32GetAdd 9) ∧
  decode ⟨0b10000001, 7, 9⟩ = .ok (.c64GetAdd 9)

/-! ## The machine -/

/-- R115: reset leaves the three registers at 0, and a reset between commands sets them to 0 and answers nothing. That it
leaves the inputs after it and the responses before it is the model's choice (assumption log 9), and so is the form of
the port, two lists that are empty in the reset state (assumption log 4). -/
def Obligations.ResetClearsRegisters : Prop :=
  State.reset.ctr32 = 0 ∧ State.reset.ctr64 = 0 ∧ State.reset.hash = 0 ∧
  ∀ (s : State) (rest : List PortInput), s.inputs = .reset :: rest →
    step s = .next { ctr32 := 0, ctr64 := 0, hash := 0, inputs := rest, responses := s.responses }

/-- R13, R36: a step on a request that decodes is its command, run on the state with that request taken. -/
def Obligations.StepRunsDecodedCommand : Prop :=
  ∀ (s : State) (r : Request) (rest : List PortInput) (i : Instr),
    s.inputs = .command r :: rest → decode r = .ok i → step s = exec i { s with inputs := rest }

/-- R46: a reserved opcode is answered IllegalCommand, whatever the buses hold; it writes no register and has no other
effect than the response (the two lists are the model's form of the port, assumption log 4). -/
def Obligations.ReservedOpcodeAnsweredIllegal : Prop :=
  ∀ (s : State) (op : Opcode) (a b : Bus) (rest : List PortInput),
    s.inputs = .command ⟨op, a, b⟩ :: rest → IsReserved op →
    step s = .next { s with inputs := rest, responses := s.responses ++ [.illegalCommand] }

/-- R114: with nothing on the port the block is idle and keeps its registers. -/
def Obligations.IdleKeepsState : Prop :=
  ∀ s : State, s.inputs = [] → step s = .next s

/-- No step of any state ends otherwise than in a next state; and every command completes, with its response, in one step.
The second clause is what R121 says of commands. The first also covers the idle step on an empty port and the reset
on the port, whose forms are the model's choice (assumption log 4, assumption log 9). -/
def Obligations.EveryStepCompletes : Prop :=
  (∀ s : State, SafeStep s) ∧
  ∀ (s : State) (r : Request) (rest : List PortInput), s.inputs = .command r :: rest →
    ∃ t p, step s = .next t ∧ t.responses = s.responses ++ [p]

/-- R36: commands take effect one at a time, in the order of issue; the second runs on the state the first left, and its
response comes after the first's. -/
def Obligations.OneResponsePerCommandInOrder : Prop :=
  ∀ (s : State) (r r' : Request) (rest : List PortInput),
    s.inputs = .command r :: .command r' :: rest →
    ∃ t u p p', step s = .next t ∧ t.inputs = .command r' :: rest ∧ t.responses = s.responses ++ [p] ∧
      step t = .next u ∧ runCommand r' { t with inputs := rest } = .next u ∧ u.inputs = rest ∧
      u.responses = s.responses ++ [p, p']

/-- R22 to R24, R13, R115, over every step from every state: what the three registers and the number of responses must
come to, worked out on the raw requests still to be issued, never changes. The ledger and the port are the model's form
(assumption log 4), and so is that a reset leaves the inputs after it and the responses before it (assumption log 9). -/
def Obligations.StepKeepsLedger : Prop :=
  ∀ (l : Ledger) (s t : State), s.ledger = l → step s = .next t → t.ledger = l

/-- The ledger of the reset state: three registers 0 and nothing answered (the ledger is the model's form, assumption
log 4). -/
def Obligations.ResetLedgerIsZero : Prop :=
  State.reset.ledger = { ctr32 := 0, ctr64 := 0, hash := 0, responses := 0 }

/-! ## Unit 0: integer conversions -/

/-- R51. -/
def Obligations.Int32WidensBySignExtension : Prop :=
  ∀ (s : State) (a b : Bus),
    decode ⟨0x00, a, b⟩ = .ok (.i32ToI64 a) ∧
    exec (.i32ToI64 a) s = .next (afterOk s ((a.setWidth 32).signExtend 64)) ∧
    exec (.i32ToI64 a) s = exec (.i32ToI32 a) s

/-- R52. -/
def Obligations.Int64NarrowsToLow32Bits : Prop :=
  ∀ (s : State) (a b : Bus),
    decode ⟨0x01, a, b⟩ = .ok (.i64ToI32 a) ∧
    exec (.i64ToI32 a) s = .next (afterOk s ((a.setWidth 32).signExtend 64))

/-- An inference the spec marks as its own in R52: narrowing changes the value exactly outside the Int32 range. -/
def Obligations.NarrowingChangesOnlyOutOfRange : Prop :=
  ∀ (s : State) (a r : Bus), exec (.i64ToI32 a) s = .next (afterOk s r) →
    (r.toInt = a.toInt ↔ -2 ^ 31 ≤ a.toInt ∧ a.toInt ≤ 2 ^ 31 - 1)

/-- R53, R54: the identities; that of Int32 gives the canonical container of its value, that of Int64 the operand. -/
def Obligations.IntegerIdentities : Prop :=
  ∀ (s : State) (a b : Bus),
    decode ⟨0x02, a, b⟩ = .ok (.i32ToI32 a) ∧ decode ⟨0x03, a, b⟩ = .ok (.i64ToI64 a) ∧
    exec (.i32ToI32 a) s = .next (afterOk s ((a.setWidth 32).signExtend 64)) ∧
    exec (.i64ToI64 a) s = .next (afterOk s a)

/-! ## Float patterns, and unit 1: float to integer -/

/-- R16: what each pattern encodes, over the rationals, for both formats. -/
def Obligations.FloatPatternsDecode : Prop :=
  (∀ v : BitVec 32,
    let s := v.getLsbD 31
    let e := (v.extractLsb' 23 8).toNat
    let f := (v.extractLsb' 0 23).toNat
    (e = 255 → f ≠ 0 → fval32 v = .nan) ∧
    (e = 255 → f = 0 → fval32 v = .inf s) ∧
    (e = 0 → (fval32 v).toRat = some (signFactor s * f * 2 ^ (-149 : ℤ)) ∧ (fval32 v).negative? = some s) ∧
    (1 ≤ e → e ≤ 254 → (fval32 v).toRat = some (signFactor s * (2 ^ 23 + f) * 2 ^ ((e : ℤ) - 150)) ∧
      (fval32 v).negative? = some s)) ∧
  ∀ v : BitVec 64,
    let s := v.getLsbD 63
    let e := (v.extractLsb' 52 11).toNat
    let f := (v.extractLsb' 0 52).toNat
    (e = 2047 → f ≠ 0 → fval64 v = .nan) ∧
    (e = 2047 → f = 0 → fval64 v = .inf s) ∧
    (e = 0 → (fval64 v).toRat = some (signFactor s * f * 2 ^ (-1074 : ℤ)) ∧ (fval64 v).negative? = some s) ∧
    (1 ≤ e → e ≤ 2046 → (fval64 v).toRat = some (signFactor s * (2 ^ 52 + f) * 2 ^ ((e : ℤ) - 1075)) ∧
      (fval64 v).negative? = some s)

/-- R56, R57: F32_TO_I32 truncates toward zero, then clamps; NaN gives 0. -/
def Obligations.Float32ToInt32TruncatesAndSaturates : Prop :=
  ∀ (s : State) (a b : Bus), decode ⟨0x10, a, b⟩ = .ok (.f32ToI32 a) ∧
    ∃ z, IsFloatToInt 32 (fval32 (a.setWidth 32)) z ∧
      exec (.f32ToI32 a) s = .next (afterOk s ((BitVec.ofInt 32 z).signExtend 64))

/-- R56, R58. -/
def Obligations.Float32ToInt64TruncatesAndSaturates : Prop :=
  ∀ (s : State) (a b : Bus), decode ⟨0x11, a, b⟩ = .ok (.f32ToI64 a) ∧
    ∃ z, IsFloatToInt 64 (fval32 (a.setWidth 32)) z ∧
      exec (.f32ToI64 a) s = .next (afterOk s (BitVec.ofInt 64 z))

/-- R56, R59. -/
def Obligations.Float64ToInt32TruncatesAndSaturates : Prop :=
  ∀ (s : State) (a b : Bus), decode ⟨0x12, a, b⟩ = .ok (.f64ToI32 a) ∧
    ∃ z, IsFloatToInt 32 (fval64 a) z ∧
      exec (.f64ToI32 a) s = .next (afterOk s ((BitVec.ofInt 32 z).signExtend 64))

/-- R56, R60. -/
def Obligations.Float64ToInt64TruncatesAndSaturates : Prop :=
  ∀ (s : State) (a b : Bus), decode ⟨0x13, a, b⟩ = .ok (.f64ToI64 a) ∧
    ∃ z, IsFloatToInt 64 (fval64 a) z ∧
      exec (.f64ToI64 a) s = .next (afterOk s (BitVec.ofInt 64 z))

/-! ## Unit 2: integer to float -/

/-- R62, R63: an Int32 rounds to the nearest binary32, ties to even; 0 gives +0.0. -/
def Obligations.Int32ToFloat32RoundsToNearest : Prop :=
  ∀ (s : State) (a b : Bus), decode ⟨0x20, a, b⟩ = .ok (.i32ToF32 a) ∧
    ∃ v : BitVec 32, exec (.i32ToF32 a) s = .next (afterOk s (v.setWidth 64)) ∧
      ((a.setWidth 32).toInt = 0 → v = 0) ∧
      ((a.setWidth 32).toInt ≠ 0 → binary32.IsRne ((a.setWidth 32).toInt : ℚ) (fval32 v))

/-- R64, by R62: an Int32 rounds to the nearest binary64, ties to even; 0 gives +0.0. -/
def Obligations.Int32ToFloat64RoundsToNearest : Prop :=
  ∀ (s : State) (a b : Bus), decode ⟨0x21, a, b⟩ = .ok (.i32ToF64 a) ∧
    ∃ v : BitVec 64, exec (.i32ToF64 a) s = .next (afterOk s v) ∧
      ((a.setWidth 32).toInt = 0 → v = 0) ∧
      ((a.setWidth 32).toInt ≠ 0 → binary64.IsRne ((a.setWidth 32).toInt : ℚ) (fval64 v))

/-- An inference the spec marks as its own in R64: every Int32 converts to binary64 exactly. -/
def Obligations.Int32ToFloat64IsExact : Prop :=
  ∀ (s t : State) (a v : Bus), exec (.i32ToF64 a) s = .next t → t.responses.getLast? = some (.ok v) →
    (fval64 v).toRat = some ((a.setWidth 32).toInt : ℚ)

/-- R62, R65: an Int64 rounds once, from the exact integer, to the nearest binary32. -/
def Obligations.Int64ToFloat32RoundsOnce : Prop :=
  ∀ (s : State) (a b : Bus), decode ⟨0x22, a, b⟩ = .ok (.i64ToF32 a) ∧
    ∃ v : BitVec 32, exec (.i64ToF32 a) s = .next (afterOk s (v.setWidth 64)) ∧
      (a.toInt = 0 → v = 0) ∧ (a.toInt ≠ 0 → binary32.IsRne (a.toInt : ℚ) (fval32 v))

/-- R62, R66. -/
def Obligations.Int64ToFloat64RoundsToNearest : Prop :=
  ∀ (s : State) (a b : Bus), decode ⟨0x23, a, b⟩ = .ok (.i64ToF64 a) ∧
    ∃ v : BitVec 64, exec (.i64ToF64 a) s = .next (afterOk s v) ∧
      (a.toInt = 0 → v = 0) ∧ (a.toInt ≠ 0 → binary64.IsRne (a.toInt : ℚ) (fval64 v))

/-- R67, an inference the spec marks as its own: no integer converts to a NaN, an infinity, -0.0, or a subnormal, and its magnitude is below 2^64. -/
def Obligations.IntToFloatStaysFinite : Prop :=
  ∀ (s t : State) (a : Bus) (v : BitVec 64),
    (exec (.i32ToF32 a) s = .next t ∨ exec (.i64ToF32 a) s = .next t →
      t.responses.getLast? = some (.ok v) →
      (v = 0 ∨ 1 ≤ ((v.setWidth 32).extractLsb' 23 8).toNat) ∧
        ∃ q, (fval32 (v.setWidth 32)).toRat = some q ∧ |q| < 2 ^ 64) ∧
    (exec (.i32ToF64 a) s = .next t ∨ exec (.i64ToF64 a) s = .next t →
      t.responses.getLast? = some (.ok v) →
      (v = 0 ∨ 1 ≤ (v.extractLsb' 52 11).toNat) ∧ ∃ q, (fval64 v).toRat = some q ∧ |q| < 2 ^ 64)

/-! ## Unit 3: Float32 and Float64 -/

/-- R68: every binary32 value widens exactly, an infinity and a zero to that of its sign, and a NaN to the NaN that the
open parameter `P_NAN64` gives. -/
def Obligations.Float32WidensExactly : Prop :=
  ∀ (s : State) (a b : Bus), decode ⟨0x30, a, b⟩ = .ok (.f32ToF64 a) ∧
    ∃ v : BitVec 64, exec (.f32ToF64 a) s = .next (afterOk s v) ∧
      (fval32 (a.setWidth 32) = .nan → v = pNan64 0x30 a b ∧ fval64 v = .nan) ∧
      (∀ n, fval32 (a.setWidth 32) = .inf n → v = if n then 0xFFF0000000000000 else 0x7FF0000000000000) ∧
      (∀ n, fval32 (a.setWidth 32) = .zero n → v = if n then 0x8000000000000000 else 0) ∧
      (∀ q, (fval32 (a.setWidth 32)).toRat = some q → (fval64 v).toRat = some q ∧
        (fval64 v).negative? = (fval32 (a.setWidth 32)).negative?)

/-- R69: a binary64 value rounds to the nearest binary32, ties to even, to an infinity when it is too large, and a NaN
gives the NaN of the open parameter `P_NAN32`. -/
def Obligations.Float64NarrowsToNearest : Prop :=
  ∀ (s : State) (a b : Bus), decode ⟨0x31, a, b⟩ = .ok (.f64ToF32 a) ∧
    ∃ v : BitVec 32, exec (.f64ToF32 a) s = .next (afterOk s (v.setWidth 64)) ∧
      (fval64 a = .nan → v = pNan32 0x31 a b ∧ fval32 v = .nan) ∧
      (∀ n, fval64 a = .inf n → v = if n then 0xFF800000 else 0x7F800000) ∧
      (∀ n, fval64 a = .zero n → v = if n then 0x80000000 else 0) ∧
      (∀ q, (fval64 a).toRat = some q → q ≠ 0 → binary32.IsRne q (fval32 v))

/-- An inference the spec marks as its own in R17: F64_TO_F32 overflows to an infinity exactly from the threshold 2^128 - 2^103 on. -/
def Obligations.Float64NarrowingOverflowThreshold : Prop :=
  ∀ (s t : State) (a : Bus) (v : BitVec 64) (q : ℚ),
    (fval64 a).toRat = some q → exec (.f64ToF32 a) s = .next t → t.responses.getLast? = some (.ok v) →
    ((∃ n, fval32 (v.setWidth 32) = .inf n) ↔ 2 ^ 128 - 2 ^ 103 ≤ |q|)

/-- R70, R71: the identity conversions keep every pattern, NaNs included; the upper half of a Float32's bus is 0. -/
def Obligations.FloatIdentitiesKeepThePattern : Prop :=
  ∀ (s : State) (a b : Bus),
    decode ⟨0x32, a, b⟩ = .ok (.f32ToF32 a) ∧ decode ⟨0x33, a, b⟩ = .ok (.f64ToF64 a) ∧
    exec (.f32ToF32 a) s = .next (afterOk s ((a.setWidth 32).setWidth 64)) ∧
    exec (.f64ToF64 a) s = .next (afterOk s a)

/-- R72, an inference the spec marks as its own: narrowing and then widening gives a Float64 back exactly when its value is one of binary32's, and otherwise
the narrowed value, widened. -/
def Obligations.NarrowThenWidenRoundTrip : Prop :=
  ∀ (s t u : State) (a v w : Bus), fval64 a ≠ .nan →
    exec (.f64ToF32 a) s = .next t → t.responses.getLast? = some (.ok v) →
    exec (.f32ToF64 v) t = .next u → u.responses.getLast? = some (.ok w) →
    (w = a ↔ ∃ x : BitVec 32, (fval32 x).negative? = (fval64 a).negative? ∧ (fval32 x).toRat = (fval64 a).toRat) ∧
    (fval64 w).negative? = (fval32 (v.setWidth 32)).negative? ∧ (fval64 w).toRat = (fval32 (v.setWidth 32)).toRat

/-! ## Unit 4: shifts -/

/-- R74: the effective amount is the masked amount bus, and for an amount `n` written in two's complement it is
`n mod width`, never negative. -/
def Obligations.ShiftAmountIsResidue : Prop :=
  (∀ b : Bus, shiftAmount32 b = (b.setWidth 5).toNat ∧ shiftAmount64 b = (b.setWidth 6).toNat) ∧
  ∀ n : Int, (shiftAmount32 (BitVec.ofInt 64 n) : Int) = n % 32 ∧ (shiftAmount64 (BitVec.ofInt 64 n) : Int) = n % 64

/-- R75 to R77. -/
def Obligations.Shifts32 : Prop :=
  ∀ (s : State) (a b : Bus),
    decode ⟨0x40, a, b⟩ = .ok (.shl32 a b) ∧ decode ⟨0x41, a, b⟩ = .ok (.shrs32 a b) ∧
    decode ⟨0x42, a, b⟩ = .ok (.shru32 a b) ∧
    exec (.shl32 a b) s = .next (afterOk s (((a.setWidth 32) <<< (b.toNat % 32)).signExtend 64)) ∧
    exec (.shrs32 a b) s = .next (afterOk s (((a.setWidth 32).sshiftRight (b.toNat % 32)).signExtend 64)) ∧
    exec (.shru32 a b) s = .next (afterOk s (((a.setWidth 32) >>> (b.toNat % 32)).signExtend 64))

/-- R78 to R80. -/
def Obligations.Shifts64 : Prop :=
  ∀ (s : State) (a b : Bus),
    decode ⟨0x44, a, b⟩ = .ok (.shl64 a b) ∧ decode ⟨0x45, a, b⟩ = .ok (.shrs64 a b) ∧
    decode ⟨0x46, a, b⟩ = .ok (.shru64 a b) ∧
    exec (.shl64 a b) s = .next (afterOk s (a <<< (b.toNat % 64))) ∧
    exec (.shrs64 a b) s = .next (afterOk s (a.sshiftRight (b.toNat % 64))) ∧
    exec (.shru64 a b) s = .next (afterOk s (a >>> (b.toNat % 64)))

/-- R81, which the spec marks as its own inference: a shift by the full width returns the value; an unsigned right shift by a masked amount of 1 or more is not
negative; a signed one keeps the sign. -/
def Obligations.ShiftLaws : Prop :=
  ∀ (s t : State) (a b r : Bus), t.responses.getLast? = some (.ok r) →
    (exec (.shl64 a 64) s = .next t ∨ exec (.shrs64 a 64) s = .next t ∨ exec (.shru64 a 64) s = .next t → r = a) ∧
    (exec (.shl32 a 32) s = .next t ∨ exec (.shrs32 a 32) s = .next t ∨ exec (.shru32 a 32) s = .next t →
      r = (a.setWidth 32).signExtend 64) ∧
    (exec (.shru32 a b) s = .next t → b.toNat % 32 ≠ 0 → 0 ≤ r.toInt) ∧
    (exec (.shru64 a b) s = .next t → b.toNat % 64 ≠ 0 → 0 ≤ r.toInt) ∧
    (exec (.shrs32 a b) s = .next t → (r.toInt < 0 ↔ (a.setWidth 32).toInt < 0)) ∧
    (exec (.shrs64 a b) s = .next t → (r.toInt < 0 ↔ a.toInt < 0))

/-! ## Unit 5: remainder -/

/-- R83, R105: REM32 gives the truncating remainder, and DivideByZero exactly when the Int32 divisor is 0. -/
def Obligations.Int32Remainder : Prop :=
  ∀ (s : State) (a b : Bus), decode ⟨0x50, a, b⟩ = .ok (.rem32 a b) ∧
    (b.setWidth 32 ≠ 0#32 → exec (.rem32 a b) s = .next (afterOk s
      ((BitVec.ofInt 32 ((a.setWidth 32).toInt.tmod (b.setWidth 32).toInt)).signExtend 64))) ∧
    (b.setWidth 32 = 0#32 → exec (.rem32 a b) s = .next { s with responses := s.responses ++ [.divideByZero] })

/-- R84, R105. -/
def Obligations.Int64Remainder : Prop :=
  ∀ (s : State) (a b : Bus), decode ⟨0x51, a, b⟩ = .ok (.rem64 a b) ∧
    (b ≠ 0 → exec (.rem64 a b) s = .next (afterOk s (BitVec.ofInt 64 (a.toInt.tmod b.toInt)))) ∧
    (b = 0 → exec (.rem64 a b) s = .next { s with responses := s.responses ++ [.divideByZero] })

/-- R88, and what R82 infers (both marked as the spec's own inference): the remainder has the sign of the dividend and is smaller than the divisor, and with the truncated
quotient it gives the dividend back, in wrapping arithmetic too. -/
def Obligations.RemainderLaw : Prop :=
  ∀ (x y : Int), y ≠ 0 →
    truncDiv x y * y + truncRem x y = x ∧ (truncRem x y).natAbs < y.natAbs ∧
    (truncRem x y ≠ 0 → (truncRem x y).sign = x.sign) ∧
    BitVec.ofInt 32 (truncDiv x y) * BitVec.ofInt 32 y + BitVec.ofInt 32 (truncRem x y) = BitVec.ofInt 32 x ∧
    BitVec.ofInt 64 (truncDiv x y) * BitVec.ofInt 64 y + BitVec.ofInt 64 (truncRem x y) = BitVec.ofInt 64 x

/-- R86, by R85: FREM32 is the exact `fmod`, always with status OK; a NaN result is that of `P_NAN32`. -/
def Obligations.Float32Remainder : Prop :=
  ∀ (s : State) (a b : Bus), decode ⟨0x52, a, b⟩ = .ok (.frem32 a b) ∧
    ∃ v : BitVec 32, exec (.frem32 a b) s = .next (afterOk s (v.setWidth 64)) ∧
      IsFloatRemainder (fval32 (a.setWidth 32)) (fval32 (b.setWidth 32)) (fval32 v) ∧
      (fval32 v = .nan → v = pNan32 0x52 a b)

/-- R87, by R85: FREM64 is the exact `fmod`, always with status OK; a NaN result is that of `P_NAN64`. -/
def Obligations.Float64Remainder : Prop :=
  ∀ (s : State) (a b : Bus), decode ⟨0x53, a, b⟩ = .ok (.frem64 a b) ∧
    ∃ v : BitVec 64, exec (.frem64 a b) s = .next (afterOk s v) ∧
      IsFloatRemainder (fval64 a) (fval64 b) (fval64 v) ∧ (fval64 v = .nan → v = pNan64 0x53 a b)

/-- What R85 infers of its own rule: a float remainder that is not a NaN has the sign of the dividend, is a finite
value, never an infinity, and is smaller than the divisor. -/
def Obligations.FloatRemainderIsSmallAndSigned : Prop :=
  ∀ (s t : State) (a b v : Bus), t.responses.getLast? = some (.ok v) →
    (exec (.frem32 a b) s = .next t → fval32 (v.setWidth 32) ≠ .nan →
      (fval32 (v.setWidth 32)).negative? = (fval32 (a.setWidth 32)).negative? ∧
      ∃ r, (fval32 (v.setWidth 32)).toRat = some r ∧ ∀ y, (fval32 (b.setWidth 32)).toRat = some y → |r| < |y|) ∧
    (exec (.frem64 a b) s = .next t → fval64 v ≠ .nan →
      (fval64 v).negative? = (fval64 a).negative? ∧
      ∃ r, (fval64 v).toRat = some r ∧ ∀ y, (fval64 b).toRat = some y → |r| < |y|)

/-! ## Unit 6: string hash -/

/-- R90, R92: HASH_CLR sets `HASH` to 0 and HASH_READ changes nothing. -/
def Obligations.HashClearAndRead : Prop :=
  ∀ (s : State) (a b : Bus), decode ⟨0x60, a, b⟩ = .ok .hashClr ∧ decode ⟨0x62, a, b⟩ = .ok .hashRead ∧
    exec .hashClr s = .next { s with hash := 0, responses := s.responses ++ [.ok 0] } ∧
    exec .hashRead s = .next (afterOk s (s.hash.signExtend 64))

/-- R91. -/
def Obligations.HashStepMultipliesBy31 : Prop :=
  ∀ (s : State) (a b : Bus), decode ⟨0x61, a, b⟩ = .ok (.hashStep b) ∧
    exec (.hashStep b) s = .next
      { s with
        hash := s.hash * 31 + (b.setWidth 16).setWidth 32
        responses := s.responses ++ [.ok ((s.hash * 31 + (b.setWidth 16).setWidth 32).signExtend 64)] }

/-- R89, R33: HASH_CLR, one HASH_STEP for each code unit in order and HASH_READ, issued for any sequence in any state, are
answered 0, the hash of each prefix in turn, and the hash of the sequence, which `HASH` holds at the end. The counters
stay as they were. -/
def Obligations.HashStringOfAnySequence : Prop :=
  ∀ (units : List CodeUnit) (s : State) (rest : List PortInput),
    s.inputs = (Pseudo.hashStr units).expand.map (fun i => .command (encode i)) ++ rest →
    ∃ t, Sys2Proof.core.run (units.length + 2) s = .next t ∧
      t.responses = s.responses ++ .ok 0 ::
        (List.range units.length).map (fun k =>
          .ok ((BitVec.ofNat 32 (hashSum (units.take (k + 1)))).signExtend 64)) ++
        [.ok ((BitVec.ofNat 32 (hashSum units)).signExtend 64)] ∧
      t.hash = BitVec.ofNat 32 (hashSum units) ∧ t.inputs = rest ∧ t.ctr32 = s.ctr32 ∧ t.ctr64 = s.ctr64

/-! ## Units 7 and 8: counters -/

/-- R95, R97. -/
def Obligations.CounterNewSetsZero : Prop :=
  ∀ (s : State) (a b : Bus),
    decode ⟨0x70, a, b⟩ = .ok .c32New ∧ decode ⟨0x80, a, b⟩ = .ok .c64New ∧
    exec .c32New s = .next { s with ctr32 := 0, responses := s.responses ++ [.ok 0] } ∧
    exec .c64New s = .next { s with ctr64 := 0, responses := s.responses ++ [.ok 0] }

/-- R96. -/
def Obligations.Counter32GetAndAdd : Prop :=
  ∀ (s : State) (a b : Bus), decode ⟨0x71, a, b⟩ = .ok (.c32GetAdd b) ∧
    exec (.c32GetAdd b) s = .next
      { s with ctr32 := s.ctr32 + b.setWidth 32, responses := s.responses ++ [.ok (s.ctr32.signExtend 64)] }

/-- R98. -/
def Obligations.Counter64GetAndAdd : Prop :=
  ∀ (s : State) (a b : Bus), decode ⟨0x81, a, b⟩ = .ok (.c64GetAdd b) ∧
    exec (.c64GetAdd b) s = .next { s with ctr64 := s.ctr64 + b, responses := s.responses ++ [.ok s.ctr64] }

/-! ## Rules on every command -/

/-- R26: a command writes no register but the one its rule names, takes nothing off the port, and adds one response after
the earlier ones; every command but the six of R35 keeps all three registers. -/
def Obligations.CommandsWriteOnlyTheirRegister : Prop :=
  ∀ (i : Instr) (s t : State), exec i s = .next t →
    (i.opcode ∉ ([0x70, 0x71] : List Opcode) → t.ctr32 = s.ctr32) ∧
    (i.opcode ∉ ([0x80, 0x81] : List Opcode) → t.ctr64 = s.ctr64) ∧
    (i.opcode ∉ ([0x60, 0x61] : List Opcode) → t.hash = s.hash) ∧
    t.inputs = s.inputs ∧ ∃ p, t.responses = s.responses ++ [p]

/-- R22, R23, R24: each register is 0 after reset, and a step changes it only by its own two commands, or by a reset. -/
def Obligations.RegistersChangedOnlyByTheirCommands : Prop :=
  State.reset.registers = (0, 0, 0) ∧ ∀ s t : State, step s = .next t →
    (t.ctr32 ≠ s.ctr32 → ∃ rest, s.inputs = .reset :: rest ∨
      ∃ a b, s.inputs = .command ⟨0x70, a, b⟩ :: rest ∨ s.inputs = .command ⟨0x71, a, b⟩ :: rest) ∧
    (t.ctr64 ≠ s.ctr64 → ∃ rest, s.inputs = .reset :: rest ∨
      ∃ a b, s.inputs = .command ⟨0x80, a, b⟩ :: rest ∨ s.inputs = .command ⟨0x81, a, b⟩ :: rest) ∧
    (t.hash ≠ s.hash → ∃ rest, s.inputs = .reset :: rest ∨
      ∃ a b, s.inputs = .command ⟨0x60, a, b⟩ :: rest ∨ s.inputs = .command ⟨0x61, a, b⟩ :: rest)

/-- R18, U12: a bus, or a part of a bus, that a command does not read changes neither its response nor its effect. -/
def Obligations.UnreadBitsAreIgnored : Prop :=
  ∀ (s : State) (a a' b b' : Bus),
    (∀ op : Opcode, op ≤ 0x3F → runCommand ⟨op, a, b⟩ s = runCommand ⟨op, a, b'⟩ s) ∧
    (∀ op : Opcode, 0x60 ≤ op → runCommand ⟨op, a, b⟩ s = runCommand ⟨op, a', b⟩ s) ∧
    (∀ op : Opcode, op ∈ ([0x60, 0x62, 0x70, 0x80] : List Opcode) →
      runCommand ⟨op, a, b⟩ s = runCommand ⟨op, a', b'⟩ s) ∧
    (a.setWidth 32 = a'.setWidth 32 → b.setWidth 32 = b'.setWidth 32 →
      ∀ op : Opcode, op ∈ ([0x00, 0x02, 0x10, 0x11, 0x20, 0x21, 0x30, 0x32, 0x40, 0x41, 0x42, 0x50, 0x52, 0x61, 0x71] :
          List Opcode) →
        runCommand ⟨op, a, b⟩ s = runCommand ⟨op, a', b'⟩ s) ∧
    (b.setWidth 5 = b'.setWidth 5 → ∀ op : Opcode, op ∈ ([0x40, 0x41, 0x42] : List Opcode) →
      runCommand ⟨op, a, b⟩ s = runCommand ⟨op, a, b'⟩ s) ∧
    (b.setWidth 16 = b'.setWidth 16 → runCommand ⟨0x61, a, b⟩ s = runCommand ⟨0x61, a, b'⟩ s)

/-- R20: the result bus of every command is placed by its result type. -/
def Obligations.ResultsArePlacedByType : Prop :=
  ∀ (i : Instr) (s t : State) (r : Bus),
    exec i s = .next t → t.responses.getLast? = some (.ok r) → IsPlaced i.resultType r

/-- R105: a command is answered DivideByZero exactly when it is REM32 with an Int32 divisor of 0 or REM64 with a divisor
of 0, it then records nothing, and no other defined command is answered an error. -/
def Obligations.DivideByZeroExactlyForZeroDivisors : Prop :=
  ∀ (s t : State) (r : Request), runCommand r s = .next t →
    (t.responses.getLast? = some .divideByZero ↔
      (r.op = 0x50 ∧ r.b.setWidth 32 = 0#32) ∨ (r.op = 0x51 ∧ r.b = 0)) ∧
    (t.responses.getLast? = some .divideByZero → t = { s with responses := s.responses ++ [.divideByZero] }) ∧
    (¬ IsReserved r.op → r.op ∉ ([0x50, 0x51] : List Opcode) → ∃ v, t.responses.getLast? = some (.ok v))

/-- R104: a command is answered IllegalCommand exactly when its opcode is reserved, whatever the buses hold. -/
def Obligations.IllegalCommandExactlyForReserved : Prop :=
  ∀ (s t : State) (r : Request), runCommand r s = .next t →
    (t.responses.getLast? = some .illegalCommand ↔ IsReserved r.op)

/-- R103: a command whose status is not OK writes no register, and repeating it gives the same error. -/
def Obligations.ErrorsWriteNothingAndRepeat : Prop :=
  ∀ (s t : State) (r : Request) (p : Response), runCommand r s = .next t → t.responses.getLast? = some p →
    p.status ≠ 0 →
    t.ctr32 = s.ctr32 ∧ t.ctr64 = s.ctr64 ∧ t.hash = s.hash ∧ p.result? = none ∧
      ∃ u, runCommand r t = .next u ∧ u.responses.getLast? = some p ∧ u.registers = s.registers

/-- R35: every command but C32_GETADD, C64_GETADD and HASH_STEP is idempotent, and so is a GETADD of delta 0. -/
def Obligations.CommandsButThreeAreIdempotent : Prop :=
  ∀ (i : Instr) (s t u : State), exec i s = .next t → exec i t = .next u →
    (i.opcode ∉ ([0x61, 0x71, 0x81] : List Opcode) ∨ i = .c64GetAdd 0 ∨
      ∃ b, i = .c32GetAdd b ∧ b.setWidth 32 = 0#32) →
    u.registers = t.registers ∧ u.responses.getLast? = t.responses.getLast?

/-- R14, R40: nothing but the request and the three registers decides a response and what a command leaves: states that
agree on the registers, whatever their ports have seen, answer alike. -/
def Obligations.OnlyRegistersDecideTheResponse : Prop :=
  ∀ (r : Request) (s s' t t' : State), s.registers = s'.registers → runCommand r s = .next t →
    runCommand r s' = .next t' →
    t.registers = t'.registers ∧ ∃ p, t.responses = s.responses ++ [p] ∧ t'.responses = s'.responses ++ [p]

/-- R12, R49: a source and a destination type have one conversion, of units 0 to 3, and the typed pseudo-instructions
expand to it. -/
def Obligations.TypedConversionIsTheOneCommand : Prop :=
  ∀ (src dst : NumType) (x : Bus), (Pseudo.convert src dst x).expand = [conversion src dst x] ∧
    (conversion src dst x).operandKinds = [.num src] ∧ (conversion src dst x).resultType = dst ∧
    (encode (conversion src dst x)).a = x ∧
    ∀ i : Instr, i.opcode ≤ 0x3F → i.operandKinds = [.num src] → i.resultType = dst →
      i.opcode = (conversion src dst x).opcode

/-- R102: the status codes are 0, 1 and 2, a result comes with code 0 alone, and code 3 is never returned. -/
def Obligations.StatusCodes : Prop :=
  (∀ r, (Response.ok r).status = 0) ∧ Response.divideByZero.status = 1 ∧ Response.illegalCommand.status = 2 ∧
  ∀ p : Response, p.status ≠ 3 ∧ (p.result?.isSome ↔ p.status = 0)
end

