-- ==== Sys2Proof/Laws/Decode.lean ====
section
/-!
SUPPORT. What the decoder and the encoder say of each other, request by request.
-/

namespace Sys2Proof

/-- A command decodes from its own request. -/
theorem decode_encode (i : Instr) : decode (encode i) = .ok i := by cases i <;> rfl

theorem encode_op (i : Instr) : (encode i).op = i.opcode := by cases i <;> rfl

section Fields
variable {k m n : Nat} (x : BitVec n) (y : BitVec m) (z : BitVec k)

theorem extract_low : (x ++ y ++ z).extractLsb' 0 k = z := by
  ext i hi
  simp [BitVec.getLsbD_append, BitVec.getLsbD_eq_getElem, hi]

theorem extract_middle : (x ++ y ++ z).extractLsb' k m = y := by
  ext i hi
  simp [BitVec.getLsbD_append, BitVec.getLsbD_eq_getElem, hi]

theorem extract_high : (x ++ y ++ z).extractLsb' (k + m) n = x := by
  ext i hi
  simp [BitVec.getLsbD_append, BitVec.getLsbD_eq_getElem, hi, Nat.add_assoc]

end Fields

/-- The fields of a request come back from its word. -/
theorem Request.ofWord_toWord (r : Request) : Request.ofWord r.toWord = r := by
  obtain ⟨op, a, b⟩ := r
  simp only [Request.ofWord, Request.toWord, Request.mk.injEq]
  exact ⟨extract_low b a op, extract_middle b a op, extract_high b a op⟩

/-- What a request decodes to has the request's opcode, and its encoding agrees with the request on it. -/
theorem opcode_of_decode {r : Request} {i : Instr} (h : decode r = .ok i) : r.op = i.opcode := by
  unfold decode at h
  split at h <;> first
    | (cases h; rename_i heq; exact BitVec.eq_of_toNat_eq heq)
    | cases h

/-- The command of the same opcode with its operands taken from the buses of `r`. -/
def Instr.withBuses (i : Instr) (r : Request) : Instr :=
  match i with
  | .i32ToI64 _ => .i32ToI64 r.a
  | .i64ToI32 _ => .i64ToI32 r.a
  | .i32ToI32 _ => .i32ToI32 r.a
  | .i64ToI64 _ => .i64ToI64 r.a
  | .f32ToI32 _ => .f32ToI32 r.a
  | .f32ToI64 _ => .f32ToI64 r.a
  | .f64ToI32 _ => .f64ToI32 r.a
  | .f64ToI64 _ => .f64ToI64 r.a
  | .i32ToF32 _ => .i32ToF32 r.a
  | .i32ToF64 _ => .i32ToF64 r.a
  | .i64ToF32 _ => .i64ToF32 r.a
  | .i64ToF64 _ => .i64ToF64 r.a
  | .f32ToF64 _ => .f32ToF64 r.a
  | .f64ToF32 _ => .f64ToF32 r.a
  | .f32ToF32 _ => .f32ToF32 r.a
  | .f64ToF64 _ => .f64ToF64 r.a
  | .shl32 _ _ => .shl32 r.a r.b
  | .shrs32 _ _ => .shrs32 r.a r.b
  | .shru32 _ _ => .shru32 r.a r.b
  | .shl64 _ _ => .shl64 r.a r.b
  | .shrs64 _ _ => .shrs64 r.a r.b
  | .shru64 _ _ => .shru64 r.a r.b
  | .rem32 _ _ => .rem32 r.a r.b
  | .rem64 _ _ => .rem64 r.a r.b
  | .frem32 _ _ => .frem32 r.a r.b
  | .frem64 _ _ => .frem64 r.a r.b
  | .hashClr => .hashClr
  | .hashStep _ => .hashStep r.b
  | .hashRead => .hashRead
  | .c32New => .c32New
  | .c32GetAdd _ => .c32GetAdd r.b
  | .c64New => .c64New
  | .c64GetAdd _ => .c64GetAdd r.b

/-- A request with the opcode of a command decodes to that command, on the buses of the request. -/
theorem decode_of_opcode {r : Request} {i : Instr} (h : r.op = i.opcode) : decode r = .ok (i.withBuses r) := by
  obtain ⟨op, a, b⟩ := r
  cases i <;> (cases h; rfl)

/-- What a request decodes to carries the request's buses. -/
theorem withBuses_of_decode {r : Request} {i : Instr} (h : decode r = .ok i) : i.withBuses r = i := by
  have := decode_of_opcode (opcode_of_decode h)
  rw [h] at this
  exact (Except.ok.inj this).symm

/-- The decoder looks only at the opcode: whether it answers a command does not depend on the buses (R47). -/
theorem decode_isOk_congr (op : Opcode) (a b a' b' : Bus) :
    (decode ⟨op, a, b⟩).isOk = (decode ⟨op, a', b'⟩).isOk := by
  unfold decode
  split <;> (rename_i heq; simp only at heq; simp only [heq])
  all_goals rfl

/-- An opcode is defined exactly when its fields are ones that R43 and R45 allow: the decoder's list of opcodes and the
rules on the fields say the same of every request. -/
theorem decode_isOk (r : Request) : (decode r).isOk = r.wellFormed := by
  have sweep : ∀ op : Opcode, (decode ⟨op, 0, 0⟩).isOk = opcodeWellFormed op := by decide
  rw [Request.wellFormed, ← sweep r.op]
  exact decode_isOk_congr r.op r.a r.b 0 0

end Sys2Proof
end

