-- ==== Sys2Proof/Laws/State.lean ====
section
/-!
SUPPORT. One lemma for each field and each named update of the state, true by rfl, so that no proof unfolds an update.
-/

namespace Sys2Proof.Machine

section Answer
variable (s : State) (r : Response)
@[simp] theorem State.answer_ctr32 : (s.answer r).ctr32 = s.ctr32 := rfl
@[simp] theorem State.answer_ctr64 : (s.answer r).ctr64 = s.ctr64 := rfl
@[simp] theorem State.answer_hash : (s.answer r).hash = s.hash := rfl
@[simp] theorem State.answer_inputs : (s.answer r).inputs = s.inputs := rfl
@[simp] theorem State.answer_responses : (s.answer r).responses = s.responses ++ [r] := rfl
@[simp] theorem State.answer_registers : (s.answer r).registers = s.registers := rfl
end Answer

section AfterOk
variable (s : State) (r : Bus)
@[simp] theorem afterOk_ctr32 : (afterOk s r).ctr32 = s.ctr32 := rfl
@[simp] theorem afterOk_ctr64 : (afterOk s r).ctr64 = s.ctr64 := rfl
@[simp] theorem afterOk_hash : (afterOk s r).hash = s.hash := rfl
@[simp] theorem afterOk_inputs : (afterOk s r).inputs = s.inputs := rfl
@[simp] theorem afterOk_responses : (afterOk s r).responses = s.responses ++ [.ok r] := rfl
theorem answer_ok : s.answer (.ok r) = afterOk s r := rfl
end AfterOk

section Reset
variable (s : State)
@[simp] theorem State.resetRegisters_ctr32 : s.resetRegisters.ctr32 = 0 := rfl
@[simp] theorem State.resetRegisters_ctr64 : s.resetRegisters.ctr64 = 0 := rfl
@[simp] theorem State.resetRegisters_hash : s.resetRegisters.hash = 0 := rfl
@[simp] theorem State.resetRegisters_inputs : s.resetRegisters.inputs = s.inputs := rfl
@[simp] theorem State.resetRegisters_responses : s.resetRegisters.responses = s.responses := rfl
end Reset

section Fetch
variable (s : State) (nbits w : Nat)
@[simp] theorem State.withFetchWord_registers : (s.withFetchWord nbits w).registers = s.registers := rfl
@[simp] theorem State.withFetchWord_responses : (s.withFetchWord nbits w).responses = s.responses := rfl
@[simp] theorem State.withFetchWord_inputs :
    (s.withFetchWord nbits w).inputs = .command (requestOfTableWord nbits w) :: s.inputs := rfl
end Fetch

/-- Ending a command with a result is a next state with one more response. -/
theorem respond_eq (res : Result) (s : State) : respond res s = .next (afterOk s res.place) := rfl

/-- Ending a command with an error is a next state with one more response, the registers as they were (R103). -/
theorem raise_eq (e : CommandError) (s : State) : raise e s = .next (s.answer e.response) := rfl

end Sys2Proof.Machine
end

