-- ==== Sys2Proof/Laws/Exec.lean ====
section
/-!
SUPPORT. What a command and a step can do, said once: which registers a command writes and with what, that it ends in
exactly one response, and the cases of a step.
-/

namespace Sys2Proof.Machine

/-- The registers after a command: written by six commands, untouched by every other (R22 to R24, R26). -/
def registersAfter (i : Instr) (s : State) : BitVec 32 × BitVec 64 × BitVec 32 :=
  match i with
  | .hashClr => (s.ctr32, s.ctr64, 0)
  | .hashStep b => (s.ctr32, s.ctr64, hashNext s.hash (codeUnitOperand b))
  | .c32New => (0, s.ctr64, s.hash)
  | .c32GetAdd b => (BitVec.ofNat 32 (s.ctr32.toNat + (low32 b).toNat), s.ctr64, s.hash)
  | .c64New => (s.ctr32, 0, s.hash)
  | .c64GetAdd b => (s.ctr32, BitVec.ofNat 64 (s.ctr64.toNat + b.toNat), s.hash)
  | _ => s.registers

section RegistersAfter
variable (s : State) (b : Bus)
theorem registersAfter_hashClr : registersAfter .hashClr s = (s.ctr32, s.ctr64, 0) := rfl
theorem registersAfter_hashStep :
    registersAfter (.hashStep b) s = (s.ctr32, s.ctr64, hashNext s.hash (codeUnitOperand b)) := rfl
theorem registersAfter_c32New : registersAfter .c32New s = (0, s.ctr64, s.hash) := rfl
theorem registersAfter_c32GetAdd :
    registersAfter (.c32GetAdd b) s = (BitVec.ofNat 32 (s.ctr32.toNat + (low32 b).toNat), s.ctr64, s.hash) := rfl
theorem registersAfter_c64New : registersAfter .c64New s = (s.ctr32, 0, s.hash) := rfl
theorem registersAfter_c64GetAdd :
    registersAfter (.c64GetAdd b) s = (s.ctr32, BitVec.ofNat 64 (s.ctr64.toNat + b.toNat), s.hash) := rfl
end RegistersAfter

/-- Three registers at once. -/
theorem State.registers_eq {t : State} {c : BitVec 32} {d : BitVec 64} {h : BitVec 32}
    (hg : t.registers = (c, d, h)) : t.ctr32 = c ∧ t.ctr64 = d ∧ t.hash = h := by
  simpa [State.registers] using hg

/-- Everything a command does: a next state with one more response, the inputs as they were, and the registers given by
`registersAfter`. -/
theorem exec_effect (i : Instr) (s : State) :
    ∃ t r, exec i s = .next t ∧ t.inputs = s.inputs ∧ t.responses = s.responses ++ [r] ∧
      t.registers = registersAfter i s := by
  cases i
  case rem32 a b =>
    by_cases h : int32Operand b = 0
    · exact ⟨_, .divideByZero, if_pos h, rfl, rfl, rfl⟩
    · exact ⟨_, _, if_neg h, rfl, rfl, rfl⟩
  case rem64 a b =>
    by_cases h : int64Operand b = 0
    · exact ⟨_, .divideByZero, if_pos h, rfl, rfl, rfl⟩
    · exact ⟨_, _, if_neg h, rfl, rfl, rfl⟩
  all_goals exact ⟨_, _, rfl, rfl, rfl, rfl⟩

/-- The same, read from an answer. -/
theorem exec_inv {i : Instr} {s t : State} (h : exec i s = .next t) :
    t.inputs = s.inputs ∧ (∃ r, t.responses = s.responses ++ [r]) ∧ t.registers = registersAfter i s := by
  obtain ⟨t', r, he, hi, hr, hg⟩ := exec_effect i s
  rw [he] at h
  cases h
  exact ⟨hi, ⟨r, hr⟩, hg⟩

/-- A command that is none of the six of R35 keeps the registers. -/
theorem registersAfter_of_not_writes {i : Instr} (h : i.writes = false) (s : State) :
    registersAfter i s = s.registers := by
  cases i <;> first
    | rfl
    | exact absurd h (by simp [Instr.writes, Instr.opcode])

section Step
variable {s : State} {rest : List PortInput}

theorem step_idle (h : s.inputs = []) : step s = .next s := by simp only [step, h]

theorem step_reset (h : s.inputs = .reset :: rest) :
    step s = .next (State.resetRegisters { s with inputs := rest }) := by simp only [step, h]

theorem step_command {r : Request} (h : s.inputs = .command r :: rest) :
    step s = runCommand r { s with inputs := rest } := by simp only [step, h]

theorem runCommand_ok {r : Request} {i : Instr} (h : decode r = .ok i) (s : State) :
    runCommand r s = exec i s := by simp only [runCommand, h]

theorem runCommand_error {r : Request} {e : Reject} (h : decode r = .error e) (s : State) :
    runCommand r s = .next (s.answer .illegalCommand) := by simp only [runCommand, h]; rfl

/-- Every request is answered: by its command, or IllegalCommand. -/
theorem runCommand_effect (r : Request) (s : State) :
    ∃ t p, runCommand r s = .next t ∧ t.inputs = s.inputs ∧ t.responses = s.responses ++ [p] := by
  cases h : decode r with
  | error e => exact ⟨_, _, runCommand_error h s, rfl, rfl⟩
  | ok i =>
    obtain ⟨t, p, he, hi, hp, -⟩ := exec_effect i s
    exact ⟨t, p, (runCommand_ok h s).trans he, hi, hp⟩

/-- A run of one more step. -/
theorem core_run_succ {t : State} (h : step s = .next t) (k : Nat) :
    Sys2Proof.core.run (k + 1) s = Sys2Proof.core.run k t := by
  have hc : Sys2Proof.core.step s = .next t := h
  simp only [Host.Core.run, hc]

end Step

end Sys2Proof.Machine
end

