-- ==== Sys2Proof/Laws/Operands.lean ====
section
/-!
SUPPORT. Operands and results in the terms of bit vectors: what each operand form reads, and the bus each result form
gives.
-/

namespace Sys2Proof.Machine

theorem low32_eq (x : Bus) : low32 x = x.setWidth 32 := by
  simp only [low32]
  ext i hi
  simp

theorem codeUnitOperand_eq (x : Bus) : codeUnitOperand x = x.setWidth 16 := by
  simp only [codeUnitOperand]
  ext i hi
  simp

theorem shiftAmount32_eq (b : Bus) : shiftAmount32 b = b.toNat % 32 := by
  simp [shiftAmount32, BitVec.extractLsb'_toNat]

theorem shiftAmount64_eq (b : Bus) : shiftAmount64 b = b.toNat % 64 := by
  simp [shiftAmount64, BitVec.extractLsb'_toNat]

@[simp] theorem place_int32_toInt (v : BitVec 32) : (Result.int32 v.toInt).place = v.signExtend 64 := by
  simp [Result.place]

@[simp] theorem place_int64_toInt (v : BitVec 64) : (Result.int64 v.toInt).place = v := by
  simp [Result.place]

/-- An Int32 carried as an Int64 is the same bus. -/
theorem place_int64_of_int32 (v : BitVec 32) : (Result.int64 v.toInt).place = v.signExtend 64 := by
  simp [Result.place, BitVec.signExtend]

/-- The counters add on the bit vectors, wrapping. -/
theorem counter32_add (c : BitVec 32) (b : Bus) :
    BitVec.ofNat 32 (c.toNat + (low32 b).toNat) = c + b.setWidth 32 := by
  apply BitVec.eq_of_toNat_eq
  simp [low32_eq]

theorem counter64_add (c b : BitVec 64) : BitVec.ofNat 64 (c.toNat + b.toNat) = c + b := by
  apply BitVec.eq_of_toNat_eq
  simp

/-- One step of the hash on the bit vectors, wrapping. -/
theorem hashNext_eq (h : BitVec 32) (b : Bus) :
    hashNext h (codeUnitOperand b) = h * 31 + (b.setWidth 16).setWidth 32 := by
  apply BitVec.eq_of_toNat_eq
  simp [hashNext, codeUnitOperand_eq]

/-- The low half of an Int32 result is the result. -/
@[simp] theorem setWidth_signExtend (v : BitVec 32) : (v.signExtend 64).setWidth 32 = v := by
  ext i hi
  rw [BitVec.getElem_setWidth, BitVec.getLsbD_signExtend]
  simp [hi, show i < 64 by omega]

/-- The low half of a Float32 result is the result. -/
@[simp] theorem setWidth_setWidth (v : BitVec 32) : (v.setWidth 64).setWidth 32 = v := by
  ext i hi
  simp

/-- Every result form is placed as R20 says for its type. -/
theorem place_isPlaced (res : Result) : IsPlaced res.numType res.place := by
  cases res <;> simp [Result.numType, IsPlaced, Result.place]

/-- An Int32 operand is 0 exactly when the low half of its bus is. -/
theorem int32Operand_eq_zero (b : Bus) : int32Operand b = 0 ↔ b.setWidth 32 = 0#32 := by
  rw [int32Operand, low32_eq, ← BitVec.toInt_inj, BitVec.toInt_zero]

/-- An Int64 operand is 0 exactly when its bus is. -/
theorem int64Operand_eq_zero (b : Bus) : int64Operand b = 0 ↔ b = 0#64 := by
  rw [int64Operand, ← BitVec.toInt_inj, BitVec.toInt_zero]

/-- `sval_32` is between its bounds. -/
theorem int32Operand_bounds (x : Bus) : -2 ^ 31 ≤ int32Operand x ∧ int32Operand x < 2 ^ 31 := by
  have := BitVec.toInt_lt (x := low32 x)
  have := BitVec.le_toInt (x := low32 x)
  simp only [int32Operand]
  omega

end Sys2Proof.Machine
end

