-- ==== Sys2Proof/Laws/Float.lean ====
section
/-!
SUPPORT. The float operations over the rationals: what scaling, encoding and rounding give, exactly. Each operation is
unfolded here once.
-/

namespace Sys2Proof.Machine

/-! ## Scaling by a power of two -/

theorem two_zpow_eq_div (k : ℤ) : (2 : ℚ) ^ k = 2 ^ k.toNat / 2 ^ (-k).toNat := by
  rcases le_total 0 k with h | h
  · obtain ⟨n, rfl⟩ := Int.eq_ofNat_of_zero_le h
    simp
  · obtain ⟨n, hn⟩ := Int.eq_ofNat_of_zero_le (Int.neg_nonneg_of_nonpos h)
    obtain rfl : k = -n := by omega
    simp

theorem scale_eq_div (m : ℕ) (k : ℤ) :
    (m : ℚ) * 2 ^ k = ((m * 2 ^ k.toNat : ℕ) : ℚ) / ((2 ^ (-k).toNat : ℕ) : ℚ) := by
  rw [two_zpow_eq_div]
  push_cast
  ring

/-- `scaleFloor` is the floor. -/
theorem scaleFloor_eq (m : ℕ) (k : ℤ) : scaleFloor m k = ⌊(m : ℚ) * 2 ^ k⌋₊ := by
  rw [scale_eq_div, Nat.floor_div_natCast, Nat.floor_natCast]
  rfl

/-- `scaleFloor` of a product that is an integer is that integer. -/
theorem scaleFloor_exact {m j : ℕ} {k : ℤ} (h : (m : ℚ) * 2 ^ k = j) : scaleFloor m k = j := by
  rw [scaleFloor_eq, h, Nat.floor_natCast]

/-- Scaling up loses nothing. -/
theorem scaleFloor_of_nonneg {k : ℤ} (h : 0 ≤ k) (m : ℕ) : (scaleFloor m k : ℚ) = m * 2 ^ k := by
  obtain ⟨n, rfl⟩ := Int.eq_ofNat_of_zero_le h
  rw [scaleFloor_exact (j := m * 2 ^ n)] <;> simp

/-- The rounding of a fraction of naturals that `scaleNearest` does. -/
theorem nearest_div (a d : ℕ) (hd : 0 < d) :
    IsNearestTieEven (if 2 * (a % d) < d then a / d else if d < 2 * (a % d) then a / d + 1 else a / d + a / d % 2)
      ((a : ℚ) / d) := by
  have hdq : (0 : ℚ) < d := by exact_mod_cast hd
  have hdiv : (a : ℚ) = d * (a / d : ℕ) + (a % d : ℕ) := by exact_mod_cast (Nat.div_add_mod a d).symm
  have hr : ((a % d : ℕ) : ℚ) < d := by exact_mod_cast Nat.mod_lt a hd
  generalize a / d = n at *
  generalize a % d = r at *
  have hx : (a : ℚ) / d = n + r / d := by rw [hdiv]; field_simp
  split_ifs with h1 h2
  · have h1q : 2 * (r : ℚ) < d := by exact_mod_cast h1
    have hlt : |(n : ℚ) - a / d| < 1 / 2 := by
      rw [hx, sub_add_cancel_left, abs_neg, abs_of_nonneg (by positivity), div_lt_iff₀ hdq]
      linarith
    exact ⟨hlt.le, fun h => absurd h hlt.ne⟩
  · have h2q : (d : ℚ) < 2 * r := by exact_mod_cast h2
    have hlt : |((n + 1 : ℕ) : ℚ) - a / d| < 1 / 2 := by
      rw [hx, Nat.cast_add, Nat.cast_one, add_sub_add_left_eq_sub,
        abs_of_pos (sub_pos.2 ((div_lt_one hdq).2 hr)), sub_lt_comm, lt_div_iff₀ hdq]
      linarith
    exact ⟨hlt.le, fun h => absurd h hlt.ne⟩
  · have hhalf : (r : ℚ) / d = 1 / 2 := by
      have : 2 * r = d := by omega
      rw [div_eq_iff hdq.ne', ← this]
      push_cast
      ring
    have heven : (n + n % 2) % 2 = 0 := by omega
    refine ⟨?_, fun _ => heven⟩
    rw [hx, hhalf]
    rcases Nat.mod_two_eq_zero_or_one n with h | h <;> rw [h] <;> push_cast
    · rw [add_zero, sub_add_cancel_left, abs_neg, abs_of_pos (by norm_num)]
    · rw [add_sub_add_left_eq_sub, abs_of_pos (by norm_num)]
      norm_num

/-- `scaleNearest` is the nearest integer, ties to even (R17). -/
theorem scaleNearest_spec (m : ℕ) (k : ℤ) : IsNearestTieEven (scaleNearest m k) ((m : ℚ) * 2 ^ k) := by
  rw [scale_eq_div]
  exact nearest_div _ _ (by positivity)

/-! ## The binary logarithm -/

/-- `floorLog2` is the floor of the logarithm to base 2. -/
theorem log_scale {m : ℕ} (hm : m ≠ 0) (e : ℤ) : Int.log 2 ((m : ℚ) * 2 ^ e) = floorLog2 m e := by
  have hmq : (0 : ℚ) < m := by exact_mod_cast Nat.pos_of_ne_zero hm
  have hpos : (0 : ℚ) < m * 2 ^ e := by positivity
  have hlow : (2 : ℚ) ^ (Nat.log2 m) ≤ m := by exact_mod_cast Nat.log2_self_le hm
  have hhigh : (m : ℚ) < 2 ^ (Nat.log2 m + 1) := by exact_mod_cast Nat.lt_log2_self
  apply le_antisymm
  · rw [← Int.lt_add_one_iff, ← Int.lt_zpow_iff_log_lt one_lt_two hpos]
    calc (m : ℚ) * 2 ^ e < 2 ^ (Nat.log2 m + 1) * 2 ^ e := by gcongr
      _ = 2 ^ (floorLog2 m e + 1) := by
        rw [← zpow_natCast, ← zpow_add₀ two_ne_zero, floorLog2]
        congr 1
        push_cast
        ring
  · rw [← Int.zpow_le_iff_le_log one_lt_two hpos]
    calc (2 : ℚ) ^ floorLog2 m e = 2 ^ (Nat.log2 m) * 2 ^ e := by
          rw [← zpow_natCast, ← zpow_add₀ two_ne_zero, floorLog2]
      _ ≤ m * 2 ^ e := by gcongr

/-- A power of two is at most a value exactly when its exponent is at most the value's logarithm. -/
theorem zpow_le_scale_iff {m : ℕ} (hm : m ≠ 0) (e k : ℤ) : (2 : ℚ) ^ k ≤ m * 2 ^ e ↔ k ≤ floorLog2 m e := by
  have hmq : (0 : ℚ) < m := by exact_mod_cast Nat.pos_of_ne_zero hm
  rw [← log_scale hm, ← Int.zpow_le_iff_le_log one_lt_two (by positivity)]
  norm_cast

theorem scale_lt_zpow_iff {m : ℕ} (hm : m ≠ 0) (e k : ℤ) : (m : ℚ) * 2 ^ e < 2 ^ k ↔ floorLog2 m e < k := by
  rw [← not_le, zpow_le_scale_iff hm, not_le]

/-! ## Patterns and their fields -/

/-- What a format must satisfy for its patterns to work; both of the block's do. -/
structure FpFormat.Good (f : FpFormat) : Prop where
  emin_eq : f.emin = 1 - f.emax
  one_le_emax : 1 ≤ f.emax
  one_le_p : 1 ≤ f.p

theorem binary32_good : binary32.Good := ⟨rfl, by decide, by decide⟩
theorem binary64_good : binary64.Good := ⟨rfl, by decide, by decide⟩

/-- Fields that lie in the bits the format gives them. -/
structure FpFormat.Fits (f : FpFormat) (x : Fields) : Prop where
  exponent_le : x.exponent ≤ f.special
  fraction_lt : x.fraction < 2 ^ (f.p - 1)

/-- The three fields of a pattern come back, for any widths. -/
theorem fields_of_append {e f : Nat} (w k : Nat) (n : Bool) (he : e < 2 ^ w) (hf : f < 2 ^ k) :
    (BitVec.ofBool n ++ BitVec.ofNat w e ++ BitVec.ofNat k f).getLsbD (k + w) = n ∧
      ((BitVec.ofBool n ++ BitVec.ofNat w e ++ BitVec.ofNat k f).extractLsb' k w).toNat = e ∧
      ((BitVec.ofBool n ++ BitVec.ofNat w e ++ BitVec.ofNat k f).extractLsb' 0 k).toNat = f := by
  rw [extract_middle, extract_low, BitVec.toNat_ofNat, BitVec.toNat_ofNat, Nat.mod_eq_of_lt he, Nat.mod_eq_of_lt hf]
  refine ⟨?_, rfl, rfl⟩
  simp [BitVec.getLsbD_append, BitVec.getElem_append]

/-- A pattern is put together again from its fields, for any widths. -/
theorem append_fields (w k : Nat) (v : BitVec (1 + w + k)) :
    BitVec.ofBool (v.getLsbD (k + w)) ++ BitVec.ofNat w (v.extractLsb' k w).toNat ++
      BitVec.ofNat k (v.extractLsb' 0 k).toNat = v := by
  simp only [BitVec.ofNat_toNat, BitVec.setWidth_eq]
  apply BitVec.eq_of_getLsbD_eq
  intro i hi
  simp only [BitVec.getLsbD_append, BitVec.getLsbD_extractLsb', BitVec.getLsbD_ofBool]
  split_ifs with h1 h2
  · simp [h1]
  · simp [show k + (i - k) = i by omega, h2]
  · simp [show k + w = i by omega, show i - k - w = 0 by omega]

theorem unpack32_pack32 {x : Fields} (h : binary32.Fits x) : unpack32 (pack32 x) = x := by
  obtain ⟨n, e, f⟩ := x
  have he : e < 2 ^ 8 := by have := h.exponent_le; simp [FpFormat.special, binary32] at this; omega
  have hf : f < 2 ^ 23 := h.fraction_lt
  obtain ⟨h1, h2, h3⟩ := fields_of_append 8 23 n he hf
  exact Fields.mk.injEq .. |>.mpr ⟨h1, h2, h3⟩

theorem unpack64_pack64 {x : Fields} (h : binary64.Fits x) : unpack64 (pack64 x) = x := by
  obtain ⟨n, e, f⟩ := x
  have he : e < 2 ^ 11 := by have := h.exponent_le; simp [FpFormat.special, binary64] at this; omega
  have hf : f < 2 ^ 52 := h.fraction_lt
  obtain ⟨h1, h2, h3⟩ := fields_of_append 11 52 n he hf
  exact Fields.mk.injEq .. |>.mpr ⟨h1, h2, h3⟩

theorem pack32_unpack32 (v : BitVec 32) : pack32 (unpack32 v) = v := append_fields 8 23 v

theorem pack64_unpack64 (v : BitVec 64) : pack64 (unpack64 v) = v := append_fields 11 52 v

theorem fits_unpack32 (v : BitVec 32) : binary32.Fits (unpack32 v) := by
  constructor
  · have := (v.extractLsb' 23 8).isLt
    simp only [unpack32, FpFormat.special, binary32]
    omega
  · exact (v.extractLsb' 0 23).isLt

theorem fits_unpack64 (v : BitVec 64) : binary64.Fits (unpack64 v) := by
  constructor
  · have := (v.extractLsb' 52 11).isLt
    simp only [unpack64, FpFormat.special, binary64]
    omega
  · exact (v.extractLsb' 0 52).isLt

/-! ## Encoding an exact value -/

/-- The exact value of a finite float as a number and a power of two, with its sign. -/
structure IsFinite (y : FpValue) (negative : Bool) (x : ℚ) : Prop where
  negative?_eq : y.negative? = some negative
  toRat_eq : y.toRat = some (signFactor negative * x)

theorem value_zeroFields {f : FpFormat} (hf : f.Good) (negative : Bool) :
    f.value (zeroFields negative) = .zero negative := by
  have := hf.one_le_emax
  have h : ¬ (0 = f.special) := by simp only [FpFormat.special]; omega
  simp [FpFormat.value, zeroFields, h]

theorem value_infFields (f : FpFormat) (negative : Bool) : f.value (f.infFields negative) = .inf negative := by
  simp [FpFormat.value, FpFormat.infFields]

/-- `encode` gives the pattern of the value, when the value is one of the format's: a multiple of the spacing at its
size, and not above the greatest (R17). -/
theorem encode_spec {f : FpFormat} (hf : f.Good) (negative : Bool) {m : ℕ} (hm : m ≠ 0) {e : ℤ} {j : ℕ}
    (hmax : floorLog2 m e ≤ f.emax)
    (hj : (m : ℚ) * 2 ^ e = j * 2 ^ (max (floorLog2 m e) f.emin - f.p + 1)) :
    f.Fits (f.encode negative m e) ∧
      ∃ m' e', f.value (f.encode negative m e) = .finite negative m' e' ∧ (m' : ℚ) * 2 ^ e' = m * 2 ^ e := by
  have hmq : (0 : ℚ) < m := by exact_mod_cast Nat.pos_of_ne_zero hm
  have hp := hf.one_le_p
  have he := hf.emin_eq
  have h1 := hf.one_le_emax
  set l := floorLog2 m e with hl
  have hscale (q : ℤ) (h : q = max l f.emin - f.p + 1) : scaleFloor m (e - q) = j := by
    apply scaleFloor_exact
    rw [sub_eq_add_neg, zpow_add₀ two_ne_zero, ← mul_assoc, hj, h, mul_assoc, ← zpow_add₀ two_ne_zero]
    simp
  have hj0 : j ≠ 0 := by
    rintro rfl
    have : (0 : ℚ) < m * 2 ^ e := by positivity
    rw [hj] at this
    simp at this
  simp only [FpFormat.encode, if_neg hm, ← hl]
  by_cases hlt : l < f.emin
  · have hq : f.lsb = max l f.emin - f.p + 1 := by rw [max_eq_right hlt.le]; rfl
    rw [if_pos hlt, hscale _ hq]
    have hjlt : j < 2 ^ (f.p - 1) := by
      have : (m : ℚ) * 2 ^ e < 2 ^ f.emin := (scale_lt_zpow_iff hm e _).2 hlt
      rw [hj, max_eq_right hlt.le, ← lt_div_iff₀ (by positivity), ← zpow_sub₀ two_ne_zero,
        show f.emin - (f.emin - f.p + 1) = ((f.p - 1 : ℕ) : ℤ) by omega, zpow_natCast] at this
      exact_mod_cast this
    have hs : ¬ (0 = f.special) := by simp only [FpFormat.special]; omega
    refine ⟨⟨Nat.zero_le _, hjlt⟩, j, f.lsb, by simp [FpFormat.value, hs, hj0], ?_⟩
    rw [hj, hq]
  · have hle : f.emin ≤ l := not_lt.1 hlt
    have hq : l - f.p + 1 = max l f.emin - f.p + 1 := by rw [max_eq_left hle]
    rw [if_neg hlt, hscale _ hq]
    rw [← hq] at hj
    have hzp : (2 : ℚ) ^ l = 2 ^ (f.p - 1) * 2 ^ (l - f.p + 1) := by
      rw [← zpow_natCast, ← zpow_add₀ two_ne_zero]
      congr 1
      omega
    have hlow : 2 ^ (f.p - 1) ≤ j := by
      have : (2 : ℚ) ^ l ≤ m * 2 ^ e := (zpow_le_scale_iff hm e l).2 le_rfl
      rw [hj, hzp, mul_le_mul_iff_left₀ (by positivity)] at this
      exact_mod_cast this
    have hhigh : j < 2 ^ f.p := by
      have : (m : ℚ) * 2 ^ e < 2 ^ (l + 1) := (scale_lt_zpow_iff hm e _).2 (by omega)
      rw [hj, zpow_add_one₀ two_ne_zero l, hzp, mul_right_comm, mul_lt_mul_iff_left₀ (by positivity)] at this
      have h2 : (2 : ℚ) ^ (f.p - 1) * 2 = 2 ^ f.p := by
        rw [← pow_succ]
        congr 1
        omega
      rw [h2] at this
      exact_mod_cast this
    have hpow : 2 ^ f.p = 2 * 2 ^ (f.p - 1) := by
      rw [← pow_succ']
      congr 1
      omega
    have hs : (l + f.emax).toNat < f.special := by simp only [FpFormat.special]; omega
    have hpos : (l + f.emax).toNat ≠ 0 := by omega
    refine ⟨⟨hs.le, by simp only; omega⟩, 2 ^ (f.p - 1) + (j - 2 ^ (f.p - 1)),
      f.lsb + (((l + f.emax).toNat : ℤ) - 1), by simp [FpFormat.value, hs.ne, hpos], ?_⟩
    rw [Nat.add_sub_cancel' hlow, hj]
    congr 2
    simp only [FpFormat.lsb]
    omega

end Sys2Proof.Machine
end

