-- ==== Sys2Proof/Laws/Integer.lean ====
section
/-!
SUPPORT. The exact integer computations of the shift and remainder units, in the terms of bit vectors and of Int.
-/

namespace Sys2Proof.Machine

/-! ## Remainder -/

/-- The truncated quotient is the library's. -/
theorem truncDiv_eq_tdiv (n d : Int) : truncDiv n d = n.tdiv d := by
  rcases Int.eq_nat_or_neg n with ⟨a, rfl | rfl⟩ <;> rcases Int.eq_nat_or_neg d with ⟨b, rfl | rfl⟩
  all_goals
    rcases Nat.eq_zero_or_pos a with rfl | ha <;> rcases Nat.eq_zero_or_pos b with rfl | hb
    all_goals simp [truncDiv, Int.neg_tdiv, Int.tdiv_neg, Int.sign_eq_one_of_pos, *]

/-- The remainder of the truncated quotient is the library's. -/
theorem truncRem_eq_tmod (n d : Int) : truncRem n d = n.tmod d := by
  rw [truncRem, truncDiv_eq_tdiv, Int.tmod_def]

/-! ## Shifts -/

/-- A multiplication by 2^s, reduced, is a left shift. -/
theorem ofInt_mul_pow (w s : Nat) (v : BitVec w) :
    BitVec.ofInt w ((v.toNat * 2 ^ s : Nat) : Int) = v <<< s := by
  apply BitVec.eq_of_toNat_eq
  rw [BitVec.ofInt_natCast, BitVec.toNat_ofNat, BitVec.toNat_shiftLeft, Nat.shiftLeft_eq]

/-- A floor of the unsigned value over 2^s is an unsigned right shift. -/
theorem ofInt_div_pow (w s : Nat) (v : BitVec w) :
    BitVec.ofInt w ((v.toNat / 2 ^ s : Nat) : Int) = v >>> s := by
  apply BitVec.eq_of_toNat_eq
  rw [BitVec.ofInt_natCast, BitVec.toNat_ofNat, BitVec.toNat_ushiftRight, Nat.shiftRight_eq_div_pow]
  exact Nat.mod_eq_of_lt ((Nat.div_le_self _ _).trans_lt v.isLt)

/-- A floor of the signed value over 2^s is a signed right shift. -/
theorem ofInt_toInt_div_pow (w s : Nat) (v : BitVec w) :
    BitVec.ofInt w (v.toInt / 2 ^ s) = v.sshiftRight s := by
  rw [BitVec.sshiftRight, Int.shiftRight_eq_div_pow]
  rfl

end Sys2Proof.Machine
end

