-- ==== Sys2Proof/Laws/PerInstr.lean ====
section
/-!
SUPPORT. Statements made one instruction at a time, for the host's case split.
-/

namespace Sys2Proof.Laws.DecodeEncode

/-- A command decodes from its own request, whose opcode is well formed. -/
def Statement (i : Instr) : Prop := decode (encode i) = .ok i ∧ (encode i).wellFormed = true

theorem of_instr (i : Instr) : Statement i := by
  refine ⟨decode_encode i, ?_⟩
  rw [← decode_isOk, decode_encode]
  rfl

theorem i32ToI64 (a : Bus) : Statement (.i32ToI64 a) := of_instr _
theorem i64ToI32 (a : Bus) : Statement (.i64ToI32 a) := of_instr _
theorem i32ToI32 (a : Bus) : Statement (.i32ToI32 a) := of_instr _
theorem i64ToI64 (a : Bus) : Statement (.i64ToI64 a) := of_instr _
theorem f32ToI32 (a : Bus) : Statement (.f32ToI32 a) := of_instr _
theorem f32ToI64 (a : Bus) : Statement (.f32ToI64 a) := of_instr _
theorem f64ToI32 (a : Bus) : Statement (.f64ToI32 a) := of_instr _
theorem f64ToI64 (a : Bus) : Statement (.f64ToI64 a) := of_instr _
theorem i32ToF32 (a : Bus) : Statement (.i32ToF32 a) := of_instr _
theorem i32ToF64 (a : Bus) : Statement (.i32ToF64 a) := of_instr _
theorem i64ToF32 (a : Bus) : Statement (.i64ToF32 a) := of_instr _
theorem i64ToF64 (a : Bus) : Statement (.i64ToF64 a) := of_instr _
theorem f32ToF64 (a : Bus) : Statement (.f32ToF64 a) := of_instr _
theorem f64ToF32 (a : Bus) : Statement (.f64ToF32 a) := of_instr _
theorem f32ToF32 (a : Bus) : Statement (.f32ToF32 a) := of_instr _
theorem f64ToF64 (a : Bus) : Statement (.f64ToF64 a) := of_instr _
theorem shl32 (a b : Bus) : Statement (.shl32 a b) := of_instr _
theorem shrs32 (a b : Bus) : Statement (.shrs32 a b) := of_instr _
theorem shru32 (a b : Bus) : Statement (.shru32 a b) := of_instr _
theorem shl64 (a b : Bus) : Statement (.shl64 a b) := of_instr _
theorem shrs64 (a b : Bus) : Statement (.shrs64 a b) := of_instr _
theorem shru64 (a b : Bus) : Statement (.shru64 a b) := of_instr _
theorem rem32 (a b : Bus) : Statement (.rem32 a b) := of_instr _
theorem rem64 (a b : Bus) : Statement (.rem64 a b) := of_instr _
theorem frem32 (a b : Bus) : Statement (.frem32 a b) := of_instr _
theorem frem64 (a b : Bus) : Statement (.frem64 a b) := of_instr _
theorem hashClr : Statement (.hashClr) := of_instr _
theorem hashStep (b : Bus) : Statement (.hashStep b) := of_instr _
theorem hashRead : Statement (.hashRead) := of_instr _
theorem c32New : Statement (.c32New) := of_instr _
theorem c32GetAdd (b : Bus) : Statement (.c32GetAdd b) := of_instr _
theorem c64New : Statement (.c64New) := of_instr _
theorem c64GetAdd (b : Bus) : Statement (.c64GetAdd b) := of_instr _

end Sys2Proof.Laws.DecodeEncode
end

