-- ==== Sys2Proof/Laws/Rounding.lean ====
section
/-!
SUPPORT. One lemma for each float operation of the units: rounding, truncation, widening, narrowing, the exact remainder and
the NaN patterns, each over the rationals.
-/

namespace Sys2Proof.Machine

/-! ## Finite values -/

theorem isFinite_of_eq {y : FpValue} {negative : Bool} {m' : ℕ} {e' : ℤ} {x : ℚ}
    (h : y = .finite negative m' e') (hx : (m' : ℚ) * 2 ^ e' = x) : IsFinite y negative x := by
  subst h
  exact ⟨rfl, by rw [← hx, ← mul_assoc]; rfl⟩

theorem isFinite_zero (negative : Bool) : IsFinite (.zero negative) negative 0 := ⟨rfl, by simp [FpValue.toRat]⟩

/-- A value of a format: its number is not 0, and lies on the format's grid and in its range. -/
theorem value_finite {f : FpFormat} (hf : f.Good) {x : Fields} (hx : f.Fits x) {negative : Bool} {m : ℕ} {e : ℤ}
    (h : f.value x = .finite negative m e) :
    m ≠ 0 ∧ m < 2 ^ f.p ∧ f.lsb ≤ e ∧ e ≤ f.emax - f.p + 1 ∧ negative = x.negative := by
  have hp := hf.one_le_p
  have hemin := hf.emin_eq
  have hmax := hf.one_le_emax
  have hfr := hx.fraction_lt
  have hpow : 2 ^ f.p = 2 * 2 ^ (f.p - 1) := by
    rw [← pow_succ']
    congr 1
    omega
  have hpos : 0 < 2 ^ (f.p - 1) := by positivity
  have hle := hx.exponent_le
  unfold FpFormat.value at h
  split_ifs at h with h1 h2 h3 h4 <;> cases h
  · exact ⟨h4, by omega, le_rfl, by simp only [FpFormat.lsb]; omega, rfl⟩
  · have : x.exponent < f.special := lt_of_le_of_ne hle h1
    simp only [FpFormat.special] at this
    refine ⟨by omega, by omega, by omega, ?_, rfl⟩
    simp only [FpFormat.lsb]
    omega

theorem log2_lt {m p : ℕ} (hm : m ≠ 0) (h : m < 2 ^ p) : Nat.log2 m < p := (Nat.log2_lt hm).2 h

/-! ## Rounding -/

/-- The rounded number is at most 2^p. -/
theorem scaleNearest_le {f : FpFormat} {m : ℕ} (hm : m ≠ 0) (e : ℤ) :
    scaleNearest m (e - (max (floorLog2 m e) f.emin - f.p + 1)) ≤ 2 ^ f.p := by
  set q := max (floorLog2 m e) f.emin - f.p + 1 with hq
  have hlt : (m : ℚ) * 2 ^ (e - q) < 2 ^ f.p := by
    rw [zpow_sub₀ two_ne_zero, ← mul_div_assoc, div_lt_iff₀ (by positivity), ← zpow_natCast,
      ← zpow_add₀ two_ne_zero, scale_lt_zpow_iff hm]
    omega
  have hn := (scaleNearest_spec m (e - q)).1
  by_contra hgt
  have hge : (2 : ℚ) ^ f.p + 1 ≤ scaleNearest m (e - q) := by exact_mod_cast Nat.lt_of_not_ge hgt
  have := (abs_le.1 hn).2
  linarith

/-- `rne` is the rounding of R17, and its fields are a pattern of the format. -/
theorem rne_spec {f : FpFormat} (hf : f.Good) (negative : Bool) {m : ℕ} (hm : m ≠ 0) (e : ℤ) :
    f.Fits (f.rne negative m e) ∧
      f.IsRne (signFactor negative * (m * 2 ^ e)) (f.value (f.rne negative m e)) := by
  have hmq : (0 : ℚ) < m := by exact_mod_cast Nat.pos_of_ne_zero hm
  have hpos : (0 : ℚ) < m * 2 ^ e := by positivity
  have habs : |signFactor negative * ((m : ℚ) * 2 ^ e)| = m * 2 ^ e := by
    rw [abs_mul, abs_of_pos hpos]
    cases negative <;> simp [signFactor]
  have hneg : decide (signFactor negative * ((m : ℚ) * 2 ^ e) < 0) = negative := by
    cases negative
    · simp only [signFactor, Bool.false_eq_true, if_false, one_mul, decide_eq_false_iff_not, not_lt]
      exact hpos.le
    · simp only [signFactor, if_true, neg_mul, one_mul, decide_eq_true_eq, neg_lt_zero]
      exact hpos
  have hp := hf.one_le_p
  have hle := scaleNearest_le (f := f) hm e
  have hspec := scaleNearest_spec m (e - (max (floorLog2 m e) f.emin - f.p + 1))
  rw [zpow_sub₀ two_ne_zero, ← mul_div_assoc] at hspec
  unfold FpFormat.IsRne FpFormat.rne
  rw [habs, hneg, log_scale hm]
  simp only
  set q := max (floorLog2 m e) f.emin - f.p + 1 with hq
  set n := scaleNearest m (e - q) with hn
  by_cases h0 : n = 0
  · rw [if_neg (by simp [h0])]
    simp only [h0, FpFormat.encode, if_true, value_zeroFields hf]
    refine ⟨⟨Nat.zero_le _, by simp only [zeroFields]; positivity⟩, 0, by rwa [h0] at hspec, ?_⟩
    rw [if_neg (by simp only [Nat.cast_zero, zero_mul, not_le]; positivity)]
    simp [FpValue.negative?, FpValue.toRat]
  have hover : (2 : ℚ) ^ (f.emax + 1) ≤ n * 2 ^ q ↔ n ≠ 0 ∧ f.emax + 1 ≤ floorLog2 n q := by
    rw [zpow_le_scale_iff h0]
    exact ⟨fun h => ⟨h0, h⟩, fun h => h.2⟩
  by_cases hbig : n ≠ 0 ∧ f.emax + 1 ≤ floorLog2 n q
  · rw [if_pos hbig, value_infFields]
    refine ⟨⟨le_rfl, by simp only [FpFormat.infFields]; positivity⟩, n, hspec, ?_⟩
    rw [if_pos (hover.2 hbig)]
  · rw [if_neg hbig]
    have hfit : floorLog2 n q ≤ f.emax := by
      by_contra h
      exact hbig ⟨h0, by omega⟩
    have hj : ∃ j : ℕ, (n : ℚ) * 2 ^ q = j * 2 ^ (max (floorLog2 n q) f.emin - f.p + 1) := by
      rcases hle.lt_or_eq with hlt | heq
      · have hlog := log2_lt h0 hlt
        obtain ⟨k, hk⟩ := Int.eq_ofNat_of_zero_le
          (show 0 ≤ q - (max (floorLog2 n q) f.emin - f.p + 1) by simp only [floorLog2] at *; omega)
        refine ⟨n * 2 ^ k, ?_⟩
        rw [Nat.cast_mul, Nat.cast_pow, Nat.cast_ofNat, mul_assoc, ← zpow_natCast, ← zpow_add₀ two_ne_zero, ← hk]
        congr 2
        omega
      · refine ⟨2 ^ (f.p - 1), ?_⟩
        have hlog : floorLog2 n q = f.p + q := by rw [heq, floorLog2, Nat.log2_two_pow]
        rw [hlog, heq, Nat.cast_pow, Nat.cast_pow, Nat.cast_ofNat, ← zpow_natCast, ← zpow_natCast,
          ← zpow_add₀ two_ne_zero, ← zpow_add₀ two_ne_zero]
        congr 1
        omega
    obtain ⟨j, hj⟩ := hj
    obtain ⟨hfits, m', e', hv, hx⟩ := encode_spec hf negative h0 hfit hj
    refine ⟨hfits, n, hspec, ?_⟩
    rw [if_neg (fun h => hbig (hover.1 h)), hv]
    have := isFinite_of_eq rfl hx (negative := negative)
    exact ⟨this.1, this.2⟩

/-- Rounding overflows to an infinity exactly when the rounded number reaches 2^(emax+1). -/
theorem isRne_inf_iff {f : FpFormat} {x : ℚ} {y : FpValue} (h : f.IsRne x y) :
    ∃ m : ℕ, IsNearestTieEven m (|x| / 2 ^ (max (Int.log 2 |x|) f.emin - f.p + 1)) ∧
      ((∃ n, y = .inf n) ↔ (2 : ℚ) ^ (f.emax + 1) ≤ m * 2 ^ (max (Int.log 2 |x|) f.emin - f.p + 1)) := by
  obtain ⟨m, hm, hy⟩ := h
  refine ⟨m, hm, ?_⟩
  split_ifs at hy with hc
  · exact ⟨fun _ => hc, fun _ => ⟨_, hy⟩⟩
  · refine ⟨fun ⟨n, hn⟩ => ?_, fun h => absurd h hc⟩
    rw [hn] at hy
    simp [FpValue.toRat] at hy

/-- Rounding a value that lies on the grid at its size, and in range, gives the value. -/
theorem isRne_exact {f : FpFormat} {x : ℚ} {y : FpValue} (h : f.IsRne x y) {j : ℕ}
    (hj : |x| = j * 2 ^ (max (Int.log 2 |x|) f.emin - f.p + 1)) (hmax : |x| < 2 ^ (f.emax + 1)) :
    y.negative? = some (decide (x < 0)) ∧ y.toRat = some x := by
  obtain ⟨m, ⟨hm, -⟩, hy⟩ := h
  set q : ℚ := 2 ^ (max (Int.log 2 |x|) f.emin - f.p + 1) with hq
  have hq0 : (0 : ℚ) < q := by positivity
  obtain rfl : m = j := by
    rw [hj, mul_div_assoc, div_self hq0.ne', mul_one] at hm
    have h2 : |(m : ℤ) - j| < 1 := by
      have : |((m : ℤ) - j : ℚ)| < 1 := by
        have := hm.trans_lt (show (1 / 2 : ℚ) < 1 by norm_num)
        exact_mod_cast this
      exact_mod_cast this
    have := Int.abs_lt_one_iff.1 h2
    omega
  rw [← hj, if_neg (not_le.2 hmax)] at hy
  refine ⟨hy.1, hy.2.trans ?_⟩
  congr 1
  by_cases hx : x < 0
  · simp [signFactor, hx, abs_of_neg hx]
  · simp [signFactor, hx, abs_of_nonneg (not_lt.1 hx)]

/-- A value of normal size that is not near overflow rounds to a finite value within half its own size. -/
theorem isRne_near {f : FpFormat} (hp : 1 ≤ f.p) {x : ℚ} {y : FpValue} (h : f.IsRne x y)
    (hlo : (2 : ℚ) ^ f.emin ≤ |x|) (hhi : 2 * |x| ≤ 2 ^ (f.emax + 1)) :
    ∃ r, y.toRat = some r ∧ |x| / 2 ≤ |r| ∧ |r| < 2 * |x| := by
  obtain ⟨m, ⟨hm, -⟩, hy⟩ := h
  have hpos : 0 < |x| := lt_of_lt_of_le (by positivity) hlo
  have hlog : (2 : ℚ) ^ Int.log 2 |x| ≤ |x| := by exact_mod_cast Int.zpow_log_le_self (b := 2) one_lt_two hpos
  have hemin : f.emin ≤ Int.log 2 |x| := (Int.zpow_le_iff_le_log one_lt_two hpos).1 (by exact_mod_cast hlo)
  set q : ℚ := 2 ^ (max (Int.log 2 |x|) f.emin - f.p + 1) with hq
  have hq0 : 0 < q := by positivity
  have hqx : q ≤ |x| := by
    refine le_trans ?_ hlog
    rw [hq, max_eq_left hemin]
    exact zpow_le_zpow_right₀ (by norm_num) (by omega)
  obtain ⟨h1, h2⟩ := abs_le.1 hm
  have e1 : |x| - q / 2 ≤ m * q := by
    have := mul_le_mul_of_nonneg_right h1 hq0.le
    rw [sub_mul, div_mul_cancel₀ _ hq0.ne'] at this
    linarith
  have e2 : m * q ≤ |x| + q / 2 := by
    have := mul_le_mul_of_nonneg_right h2 hq0.le
    rw [sub_mul, div_mul_cancel₀ _ hq0.ne'] at this
    linarith
  rw [if_neg (by linarith)] at hy
  refine ⟨_, hy.2, ?_, ?_⟩
  all_goals
    rw [abs_mul, abs_of_nonneg (show (0 : ℚ) ≤ m * q by positivity),
      show |signFactor (decide (x < 0))| = 1 by unfold signFactor; split <;> simp]
    linarith

/-- A pattern whose value is of normal size has an exponent field that is not 0. -/
theorem exponent_ne_zero {f : FpFormat} (hf : f.Good) {x : Fields} (hx : f.Fits x) {r : ℚ}
    (h : (f.value x).toRat = some r) (hr : (2 : ℚ) ^ f.emin ≤ |r|) : x.exponent ≠ 0 := by
  intro h0
  have hs : ¬ (0 = f.special) := by
    have := hf.one_le_emax
    simp only [FpFormat.special]
    omega
  have hp := hf.one_le_p
  have hfr : (x.fraction : ℚ) < 2 ^ (f.p - 1) := by exact_mod_cast hx.fraction_lt
  have hlt : (x.fraction : ℚ) * 2 ^ f.lsb < 2 ^ f.emin := by
    have he : (2 : ℚ) ^ f.emin = 2 ^ (f.p - 1) * 2 ^ f.lsb := by
      rw [← zpow_natCast, ← zpow_add₀ two_ne_zero]
      congr 1
      simp only [FpFormat.lsb]
      omega
    rw [he]
    gcongr
  have habs : |r| = x.fraction * 2 ^ f.lsb := by
    rw [FpFormat.value, h0, if_neg hs, if_pos rfl] at h
    split at h <;> rename_i hfz <;> cases h
    · simp [hfz]
    · rw [mul_assoc, abs_mul, abs_of_nonneg (show (0 : ℚ) ≤ x.fraction * 2 ^ f.lsb by positivity)]
      unfold signFactor
      split <;> simp
  linarith

/-- A number of at most `p` bits, scaled within a format's exponents, lies on the grid at its size. -/
theorem on_grid {f : FpFormat} {m : ℕ} {e : ℤ} (h0 : m ≠ 0) (hm : m < 2 ^ f.p) (he : f.lsb ≤ e) :
    ∃ j : ℕ, (m : ℚ) * 2 ^ e = j * 2 ^ (max (floorLog2 m e) f.emin - f.p + 1) := by
  have hlog := log2_lt h0 hm
  obtain ⟨k, hk⟩ := Int.eq_ofNat_of_zero_le
    (show 0 ≤ e - (max (floorLog2 m e) f.emin - f.p + 1) by simp only [floorLog2, FpFormat.lsb] at *; omega)
  refine ⟨m * 2 ^ k, ?_⟩
  rw [Nat.cast_mul, Nat.cast_pow, Nat.cast_ofNat, mul_assoc, ← zpow_natCast, ← zpow_add₀ two_ne_zero, ← hk]
  congr 2
  omega

/-- Two numbers in normal form that are equal are the same number with the same exponent. -/
theorem normal_form_unique {p m m' : ℕ} {e e' : ℤ} (hp : 1 ≤ p) (hm : m < 2 ^ p)
    (hn : e < e' → 2 ^ (p - 1) ≤ m') (h : (m : ℚ) * 2 ^ e = m' * 2 ^ e') : ¬ e < e' := by
  intro hlt
  have hpow : (2 : ℚ) ^ p = 2 * 2 ^ (p - 1) := by
    rw [← pow_succ']
    congr 1
    omega
  have e1 : (m : ℚ) * 2 ^ e < 2 ^ p * 2 ^ e := by
    gcongr
    exact_mod_cast hm
  have e2 : (2 : ℚ) ^ (p - 1) * 2 ^ (e + 1) ≤ m' * 2 ^ e' := by
    gcongr
    · exact_mod_cast hn hlt
    · norm_num
    · omega
  rw [zpow_add_one₀ two_ne_zero] at e2
  rw [hpow] at e1
  linarith

/-- The fields of a pattern, from its finite value. -/
theorem fields_of_finite {f : FpFormat} {x : Fields} {n : Bool} {m : ℕ} {e : ℤ}
    (h : f.value x = .finite n m e) :
    x.negative = n ∧ ((x.exponent = 0 ∧ x.fraction = m ∧ e = f.lsb) ∨
      (x.exponent ≠ 0 ∧ (x.exponent : ℤ) = e - f.lsb + 1 ∧ 2 ^ (f.p - 1) + x.fraction = m)) := by
  unfold FpFormat.value at h
  split_ifs at h with h1 h2 h3 h4 <;> cases h
  · exact ⟨rfl, .inl ⟨h3, rfl, rfl⟩⟩
  · exact ⟨rfl, .inr ⟨h3, by omega, rfl⟩⟩

/-- Two patterns of a format with the same sign and the same value, not NaNs, are the same. -/
theorem value_injective {f : FpFormat} (hf : f.Good) {x y : Fields} (hx : f.Fits x) (hy : f.Fits y)
    (hnan : f.value x ≠ .nan) (hs : (f.value x).negative? = (f.value y).negative?)
    (hr : (f.value x).toRat = (f.value y).toRat) : x = y := by
  have hinf {x : Fields} {n : Bool} (h : f.value x = .inf n) : x = f.infFields n := by
    obtain ⟨s, e, fr⟩ := x
    unfold FpFormat.value at h
    split_ifs at h with h1 h2
    cases h
    simp only at h1 h2
    rw [h1, h2]
    rfl
  have hzero {x : Fields} {n : Bool} (h : f.value x = .zero n) : x = zeroFields n := by
    obtain ⟨s, e, fr⟩ := x
    unfold FpFormat.value at h
    split_ifs at h with h1 h2 h3 h4
    cases h
    simp only at h3 h4
    rw [h3, h4]
    rfl
  have hne {n : Bool} {m : ℕ} {e : ℤ} (hm : m ≠ 0) : signFactor n * m * 2 ^ e ≠ 0 := by
    have : signFactor n ≠ 0 := by cases n <;> simp [signFactor]
    positivity
  cases hvx : f.value x with
  | nan => exact absurd hvx hnan
  | inf n =>
    cases hvy : f.value y <;> rw [hvx, hvy] at hs hr <;> simp [FpValue.negative?, FpValue.toRat] at hs hr
    rw [hinf hvx, hinf hvy, hs]
  | zero n =>
    cases hvy : f.value y <;> rw [hvx, hvy] at hs hr
    case finite n' m' e' =>
      exact absurd (Option.some.inj hr).symm (hne (value_finite hf hy hvy).1)
    all_goals simp [FpValue.negative?, FpValue.toRat] at hs hr
    rw [hzero hvx, hzero hvy, hs]
  | finite n m e =>
    obtain ⟨hm0, hm, hlo, -, -⟩ := value_finite hf hx hvx
    cases hvy : f.value y <;> rw [hvx, hvy] at hs hr
    case zero n' => exact absurd (Option.some.inj hr) (hne hm0)
    case finite n' m' e' =>
      obtain ⟨hm0', hm', hlo', -, -⟩ := value_finite hf hy hvy
      obtain rfl : n = n' := by simpa [FpValue.negative?] using hs
      have heq : (m : ℚ) * 2 ^ e = m' * 2 ^ e' := by
        have hss : signFactor n ≠ 0 := by cases n <;> simp [signFactor]
        have := Option.some.inj hr
        rw [mul_assoc, mul_assoc] at this
        exact mul_left_cancel₀ hss this
      obtain ⟨hn, hfx⟩ := fields_of_finite hvx
      obtain ⟨hn', hfy⟩ := fields_of_finite hvy
      have h1 := normal_form_unique hf.one_le_p hm (by omega) heq
      have h2 := normal_form_unique hf.one_le_p hm' (by omega) heq.symm
      obtain rfl : e = e' := by omega
      obtain rfl : m = m' := by
        have h2 : (2 : ℚ) ^ e ≠ 0 := by positivity
        exact_mod_cast mul_right_cancel₀ h2 heq
      have hfrx := hx.fraction_lt
      have hfry := hy.fraction_lt
      obtain ⟨sx, ex, fx⟩ := x
      obtain ⟨sy, ey, fy⟩ := y
      simp only at hn hn' hfx hfy hfrx hfry
      rw [Fields.mk.injEq]
      exact ⟨hn.trans hn'.symm, by omega, by omega⟩
    all_goals simp [FpValue.negative?, FpValue.toRat] at hs hr

/-! ## Truncation and float to integer -/

theorem truncRat_neg (x : ℚ) : truncRat (-x) = -truncRat x := by
  rcases lt_trichotomy x 0 with h | h | h
  · simp only [truncRat, if_pos (neg_nonneg.2 h.le), if_neg (not_le.2 h), Int.floor_neg]
  · simp [truncRat, h]
  · simp only [truncRat, if_neg (not_le.2 (neg_lt_zero.2 h)), if_pos h.le, Int.ceil_neg]

theorem truncRat_natCast_div (a b : ℕ) : truncRat ((a : ℚ) / b) = (a / b : ℕ) := by
  rw [truncRat, if_pos (by positivity), ← Int.natCast_floor_eq_floor (by positivity), Nat.floor_div_eq_div]

theorem truncRat_sign (negative : Bool) (x : ℚ) :
    truncRat (signFactor negative * x) = if negative then -truncRat x else truncRat x := by
  cases negative <;> simp [signFactor, truncRat_neg]

/-- `truncFinite` is truncation toward zero (R8). -/
theorem truncFinite_spec (negative : Bool) (m : ℕ) (e : ℤ) :
    truncFinite negative m e = truncRat (signFactor negative * (m * 2 ^ e)) := by
  have h : (0 : ℚ) ≤ m * 2 ^ e := by positivity
  rw [truncRat_sign, truncRat, if_pos h, ← Int.natCast_floor_eq_floor h, ← scaleFloor_eq, truncFinite]

/-- `floatToInt` is `F2I_N` (R56). -/
theorem floatToInt_spec (n : ℕ) (x : FpValue) : IsFloatToInt n x (floatToInt n x) := by
  refine ⟨?_, ?_, ?_, ?_⟩
  · rintro rfl; rfl
  · rintro rfl; rfl
  · rintro rfl; rfl
  · intro q hq
    have h1 : (1 : ℤ) ≤ 2 ^ (n - 1) := one_le_pow₀ (by norm_num)
    cases x with
    | nan => cases hq
    | inf s => cases hq
    | zero s =>
      obtain rfl : (0 : ℚ) = q := by simpa [FpValue.toRat] using hq
      simp only [floatToInt, truncRat, le_refl, if_true, Int.floor_zero]
      omega
    | finite s m e =>
      obtain rfl : signFactor s * m * 2 ^ e = q := by simpa [FpValue.toRat] using hq
      rw [mul_assoc, ← truncFinite_spec]
      simp only [floatToInt, intMax, intMin]
      split_ifs <;> omega

/-! ## Integer to float -/

/-- `intToFloat` of an integer other than 0 is its rounding (R62). -/
theorem intToFloat_spec {f : FpFormat} (hf : f.Good) {z : ℤ} (hz : z ≠ 0) :
    f.Fits (intToFloat f z) ∧ f.IsRne z (f.value (intToFloat f z)) := by
  obtain ⟨h1, h2⟩ := rne_spec hf (decide (z < 0)) (Int.natAbs_ne_zero.2 hz) 0
  have hx : signFactor (decide (z < 0)) * ((z.natAbs : ℚ) * 2 ^ (0 : ℤ)) = z := by
    rw [zpow_zero, mul_one, Nat.cast_natAbs, signFactor]
    by_cases h : z < 0
    · simp [h, abs_of_neg h]
    · simp [h, abs_of_nonneg (not_lt.1 h)]
  rw [hx] at h2
  simp only [intToFloat, if_neg hz]
  exact ⟨h1, h2⟩

/-! ## Widening, narrowing, remainder -/

/-- A number of at most `p` bits on the format's grid and in its range encodes exactly. -/
theorem encode_exact {f : FpFormat} (hf : f.Good) (negative : Bool) {m : ℕ} {e : ℤ} (hm : m < 2 ^ f.p)
    (he : f.lsb ≤ e) (hmax : e ≤ f.emax - f.p + 1) :
    f.Fits (f.encode negative m e) ∧ IsFinite (f.value (f.encode negative m e)) negative (m * 2 ^ e) := by
  by_cases h0 : m = 0
  · subst h0
    simp only [FpFormat.encode, if_true, value_zeroFields hf, Nat.cast_zero, zero_mul]
    exact ⟨⟨Nat.zero_le _, by simp only [zeroFields]; positivity⟩, isFinite_zero negative⟩
  · have hlog := log2_lt h0 hm
    have hp := hf.one_le_p
    obtain ⟨j, hj⟩ := on_grid h0 hm he
    obtain ⟨hfits, m', e', hv, hx⟩ := encode_spec hf negative h0 (by simp only [floorLog2]; omega) hj
    exact ⟨hfits, isFinite_of_eq hv hx⟩

/-- Every finite binary32 value widens exactly (R68). -/
theorem widen_finite (v : BitVec 32) {negative : Bool} {m : ℕ} {e : ℤ} (h : fval32 v = .finite negative m e) :
    binary64.Fits (binary64.encode negative m e) ∧
      IsFinite (binary64.value (binary64.encode negative m e)) negative (m * 2 ^ e) := by
  obtain ⟨-, hm, hlo, hhi, -⟩ := value_finite binary32_good (fits_unpack32 v) h
  simp only [binary32, FpFormat.lsb] at hm hlo hhi
  refine encode_exact binary64_good negative ?_ ?_ ?_ <;> simp only [binary64, FpFormat.lsb] <;> omega

/-- The number of a value brought down to a smaller exponent. -/
theorem scale_down (m : ℕ) {e e' : ℤ} (h : e' ≤ e) : (m : ℚ) * 2 ^ e = scaleFloor m (e - e') * 2 ^ e' := by
  rw [scaleFloor_of_nonneg (by omega), mul_assoc, ← zpow_add₀ two_ne_zero, sub_add_cancel]

/-- The exact remainder of two finite values: R85, last branch. -/
theorem finiteRemainder_spec {f : FpFormat} (hf : f.Good) {x y : Fields} (hx : f.Fits x) (hy : f.Fits y)
    {sx sy : Bool} {mx my : ℕ} {ex ey : ℤ} (hvx : f.value x = .finite sx mx ex) (hvy : f.value y = .finite sy my ey) :
    f.Fits (finiteRemainder f sx mx ex my ey) ∧
      (f.value (finiteRemainder f sx mx ex my ey)).negative? = some sx ∧
      (f.value (finiteRemainder f sx mx ex my ey)).toRat =
        some (signFactor sx * mx * 2 ^ ex -
          signFactor sy * my * 2 ^ ey * truncRat (signFactor sx * mx * 2 ^ ex / (signFactor sy * my * 2 ^ ey))) := by
  obtain ⟨hmx0, hmx, hxlo, hxhi, -⟩ := value_finite hf hx hvx
  obtain ⟨hmy0, hmy, hylo, hyhi, -⟩ := value_finite hf hy hvy
  set e := min ex ey with he
  have hX := scale_down mx (show e ≤ ex by omega)
  have hY := scale_down my (show e ≤ ey by omega)
  have hY0 : scaleFloor my (ey - e) ≠ 0 := by
    intro h
    rw [h, Nat.cast_zero, zero_mul] at hY
    have : (0 : ℚ) < my * 2 ^ ey := by positivity
    exact this.ne' hY
  have hlt : scaleFloor mx (ex - e) % scaleFloor my (ey - e) < 2 ^ f.p := by
    rcases le_total ex ey with h | h
    · have h0 : ex - e = 0 := by omega
      have : scaleFloor mx (ex - e) = mx := by rw [h0]; simp [scaleFloor]
      exact ((Nat.mod_le _ _).trans this.le).trans_lt hmx
    · have h0 : ey - e = 0 := by omega
      have : scaleFloor my (ey - e) = my := by rw [h0]; simp [scaleFloor]
      exact (Nat.mod_lt _ (Nat.pos_of_ne_zero hY0)).trans (by rwa [this])
  obtain ⟨hfits, hneg, hrat⟩ := encode_exact hf sx hlt (show f.lsb ≤ e by omega) (by omega)
  refine ⟨hfits, hneg, hrat.trans ?_⟩
  rw [mul_assoc, hX, mul_assoc (signFactor sy), hY]
  generalize scaleFloor mx (ex - e) = X at *
  generalize scaleFloor my (ey - e) = Y at *
  have hYq : (Y : ℚ) ≠ 0 := by exact_mod_cast hY0
  have hquot : signFactor sx * ((X : ℚ) * 2 ^ e) / (signFactor sy * (Y * 2 ^ e)) =
      signFactor (xor sx sy) * (X / Y) := by
    have h2 : (2 : ℚ) ^ e ≠ 0 := by positivity
    cases sx <;> cases sy <;> simp [signFactor] <;> field_simp
  have hmod : (X : ℚ) = Y * (X / Y : ℕ) + (X % Y : ℕ) := by exact_mod_cast (Nat.div_add_mod X Y).symm
  rw [hquot, truncRat_sign, truncRat_natCast_div]
  congr 1
  rw [show ((X % Y : ℕ) : ℚ) = X - Y * (X / Y : ℕ) by linarith]
  generalize X / Y = N
  cases sx <;> cases sy <;> simp [signFactor] <;> ring

/-- `floatRemainder` is `FMOD` (R85): where it gives fields they are a pattern of the remainder, and it gives none
exactly where the remainder is a NaN. -/
theorem floatRemainder_spec {f : FpFormat} (hf : f.Good) {x y : Fields} (hx : f.Fits x) (hy : f.Fits y) :
    match floatRemainder f x y with
    | none => IsFloatRemainder (f.value x) (f.value y) .nan
    | some r => f.Fits r ∧ IsFloatRemainder (f.value x) (f.value y) (f.value r) := by
  have hne {n : Bool} {m : ℕ} {e : ℤ} (hm : m ≠ 0) : signFactor n * m * 2 ^ e ≠ 0 := by
    have : signFactor n ≠ 0 := by cases n <;> simp [signFactor]
    positivity
  unfold floatRemainder
  cases hvx : f.value x <;> cases hvy : f.value y
  case finite.finite nx mx ex ny my ey =>
    obtain ⟨h1, h2, h3⟩ := finiteRemainder_spec hf hx hy hvx hvy
    refine ⟨h1, ?_, by simp, by simp, ?_⟩
    · simp [FpValue.toRat, hne (value_finite hf hy hvy).1]
    · intro p q hp hq _ _
      obtain rfl := Option.some.inj hp
      obtain rfl := Option.some.inj hq
      exact ⟨h3, h2⟩
  case zero.finite n ny my ey =>
    refine ⟨hx, ?_⟩
    rw [hvx]
    refine ⟨by simp [FpValue.toRat, hne (value_finite hf hy hvy).1], by simp, by simp, ?_⟩
    simp [FpValue.toRat]
  case zero.inf n ny =>
    refine ⟨hx, ?_⟩
    rw [hvx]
    exact ⟨by simp [FpValue.toRat], by simp, by simp, by simp [FpValue.toRat]⟩
  case finite.inf nx mx ex ny =>
    refine ⟨hx, ?_⟩
    rw [hvx]
    exact ⟨by simp [FpValue.toRat], by simp, by simp, by simp [FpValue.toRat]⟩
  all_goals
    refine ⟨fun _ => rfl, ?_, ?_, ?_⟩ <;> simp [FpValue.toRat]

/-- Where `floatRemainder` gives fields, they are not those of a NaN. -/
theorem floatRemainder_ne_nan {f : FpFormat} (hf : f.Good) {x y r : Fields} (hx : f.Fits x) (hy : f.Fits y)
    (h : floatRemainder f x y = some r) : f.value r ≠ .nan := by
  unfold floatRemainder at h
  cases hvx : f.value x <;> cases hvy : f.value y <;> simp only [hvx, hvy, reduceCtorEq, Option.some.injEq] at h
  case finite.finite =>
    obtain ⟨-, hneg, -⟩ := finiteRemainder_spec hf hx hy hvx hvy
    rw [h] at hneg
    intro hnan
    rw [hnan] at hneg
    cases hneg
  all_goals
    rw [← h, hvx]
    simp

/-! ## NaN patterns -/

/-- Whatever the open parameter is, `P_NAN32` is a NaN (R5, D6). -/
theorem fval32_pNan32 (op : Opcode) (a b : Bus) : fval32 (pNan32 op a b) = .nan := by
  unfold pNan32
  generalize Config.nan32 op _ _ = c
  have hlt := c.2.isLt
  have hfits : binary32.Fits ⟨c.1, 255, c.2.val + 1⟩ :=
    ⟨by simp [FpFormat.special, binary32], by simp only [binary32]; omega⟩
  rw [fval32, unpack32_pack32 hfits]
  simp [FpFormat.value, FpFormat.special, binary32]

/-- Whatever the open parameter is, `P_NAN64` is a NaN (R5, D6). -/
theorem fval64_pNan64 (op : Opcode) (a b : Bus) : fval64 (pNan64 op a b) = .nan := by
  unfold pNan64
  generalize Config.nan64 op _ _ = c
  have hlt := c.2.isLt
  have hfits : binary64.Fits ⟨c.1, 2047, c.2.val + 1⟩ :=
    ⟨by simp [FpFormat.special, binary64], by simp only [binary64]; omega⟩
  rw [fval64, unpack64_pack64 hfits]
  simp [FpFormat.value, FpFormat.special, binary64]

/-- The bits F32_TO_F64 does not read do not reach its NaN pattern (R18, R19, U12). -/
theorem pNan64_widen_congr {a a' : Bus} (ha : low32 a = low32 a') (b b' : Bus) :
    pNan64 0x30 a b = pNan64 0x30 a' b' := by
  have h : nanOperands 0x30 a b = nanOperands 0x30 a' b' :=
    congrArg (fun v : BitVec 32 => ((v.setWidth 64 : Bus), (0 : Bus))) ha
  rw [pNan64, pNan64, h]

/-- The bits FREM32 does not read do not reach its NaN pattern (R19, U12). -/
theorem pNan32_frem_congr {a a' b b' : Bus} (ha : low32 a = low32 a') (hb : low32 b = low32 b') :
    pNan32 0x52 a b = pNan32 0x52 a' b' := by
  have h : nanOperands 0x52 a b = nanOperands 0x52 a' b' :=
    congrArg₂ (fun v w : BitVec 32 => ((v.setWidth 64 : Bus), (w.setWidth 64 : Bus))) ha hb
  rw [pNan32, pNan32, h]

end Sys2Proof.Machine
end

