-- ==== Sys2Proof/Tests/Slice0.lean ====
section
/-!
SUPPORT. Small tests: the form check and what it refuses, the decoding of each row of the opcode table from its bits,
one step of each command with the result its rule gives (the rule is named in each comment), the notation, and for
each obligation with hypotheses a witness that meets them.
-/

namespace Sys2Proof.Tests
-- one theorem at a time: many small kernel evaluations would each hold a thread of their own
set_option Elab.async false
open Sys2Proof.Machine

/-- A state with nothing on its port. -/
def idle (c : BitVec 32) (d : BitVec 64) (h : BitVec 32) : State :=
  { ctr32 := c, ctr64 := d, hash := h, inputs := [], responses := [] }

/-- One step of a state on one command: the last response and the three registers. -/
def one (s : State) (op : Opcode) (a b : Bus) : Option (Response × BitVec 32 × BitVec 64 × BitVec 32) :=
  match step { s with inputs := [.command ⟨op, a, b⟩] } with
  | .next t => t.responses.getLast?.map fun p => (p, t.registers)
  | .fault _ => none
  | .refused _ => none

/-- The state a command leaves. -/
def after (i : Instr) (s : State) : State :=
  match exec i s with
  | .next t => t
  | .fault _ => s
  | .refused _ => s

/-! ## The form check: the opcode's fields (R43, R45, R46) -/

theorem test_wellFormed_defined : ∀ op ∈ definedOpcodes, opcodeWellFormed op = true := by decide +kernel
theorem test_wellFormed_count : (List.range 256).countP (fun n => opcodeWellFormed (BitVec.ofNat 8 n)) = 33 := by
  decide +kernel
/-- Units 0 to 3 and 5: `fn[3:2]` must be 00. -/
theorem test_illFormed_fn_high : opcodeWellFormed 0x04 = false ∧ opcodeWellFormed 0x1F = false ∧
    opcodeWellFormed 0x28 = false ∧ opcodeWellFormed 0x34 = false ∧ opcodeWellFormed 0x54 = false := by decide
/-- Unit 4: kind 11 is reserved at both widths, and `fn[3]` must be 0. -/
theorem test_illFormed_shift : opcodeWellFormed 0x43 = false ∧ opcodeWellFormed 0x47 = false ∧
    opcodeWellFormed 0x48 = false := by decide
/-- Unit 6: three operations. -/
theorem test_illFormed_hash : opcodeWellFormed 0x63 = false := by decide
/-- Units 7 and 8: two operations. -/
theorem test_illFormed_counter : opcodeWellFormed 0x72 = false ∧ opcodeWellFormed 0x82 = false := by decide
/-- Units 9 to 15 select nothing. -/
theorem test_illFormed_unit : opcodeWellFormed 0x90 = false ∧ opcodeWellFormed 0xFF = false := by decide
/-- A request is refused by its opcode, whatever its buses hold, and by name. -/
theorem test_reject_names : decode ⟨0x47, 1, 2⟩ = .error (.reservedFunction 0x47) ∧
    decode ⟨0x91, 1, 2⟩ = .error (.reservedUnit 0x91) := by decide

/-! ## Decoding, each row of R44 written out as `unit` and `fn` bits -/

theorem test_decode_int_conversion :
    decode ⟨0b00000000, 7, 9⟩ = .ok (.i32ToI64 7) ∧
    decode ⟨0b00000001, 7, 9⟩ = .ok (.i64ToI32 7) ∧
    decode ⟨0b00000010, 7, 9⟩ = .ok (.i32ToI32 7) ∧
    decode ⟨0b00000011, 7, 9⟩ = .ok (.i64ToI64 7) := by decide

theorem test_decode_float_to_int :
    decode ⟨0b00010000, 7, 9⟩ = .ok (.f32ToI32 7) ∧
    decode ⟨0b00010001, 7, 9⟩ = .ok (.f32ToI64 7) ∧
    decode ⟨0b00010010, 7, 9⟩ = .ok (.f64ToI32 7) ∧
    decode ⟨0b00010011, 7, 9⟩ = .ok (.f64ToI64 7) := by decide

theorem test_decode_int_to_float :
    decode ⟨0b00100000, 7, 9⟩ = .ok (.i32ToF32 7) ∧
    decode ⟨0b00100001, 7, 9⟩ = .ok (.i32ToF64 7) ∧
    decode ⟨0b00100010, 7, 9⟩ = .ok (.i64ToF32 7) ∧
    decode ⟨0b00100011, 7, 9⟩ = .ok (.i64ToF64 7) := by decide

theorem test_decode_float_conversion :
    decode ⟨0b00110000, 7, 9⟩ = .ok (.f32ToF64 7) ∧
    decode ⟨0b00110001, 7, 9⟩ = .ok (.f64ToF32 7) ∧
    decode ⟨0b00110010, 7, 9⟩ = .ok (.f32ToF32 7) ∧
    decode ⟨0b00110011, 7, 9⟩ = .ok (.f64ToF64 7) := by decide

theorem test_decode_shift :
    decode ⟨0b01000000, 7, 9⟩ = .ok (.shl32 7 9) ∧
    decode ⟨0b01000001, 7, 9⟩ = .ok (.shrs32 7 9) ∧
    decode ⟨0b01000010, 7, 9⟩ = .ok (.shru32 7 9) ∧
    decode ⟨0b01000100, 7, 9⟩ = .ok (.shl64 7 9) ∧
    decode ⟨0b01000101, 7, 9⟩ = .ok (.shrs64 7 9) ∧
    decode ⟨0b01000110, 7, 9⟩ = .ok (.shru64 7 9) := by decide

theorem test_decode_remainder :
    decode ⟨0b01010000, 7, 9⟩ = .ok (.rem32 7 9) ∧
    decode ⟨0b01010001, 7, 9⟩ = .ok (.rem64 7 9) ∧
    decode ⟨0b01010010, 7, 9⟩ = .ok (.frem32 7 9) ∧
    decode ⟨0b01010011, 7, 9⟩ = .ok (.frem64 7 9) := by decide

theorem test_decode_hash :
    decode ⟨0b01100000, 7, 9⟩ = .ok .hashClr ∧
    decode ⟨0b01100001, 7, 9⟩ = .ok (.hashStep 9) ∧
    decode ⟨0b01100010, 7, 9⟩ = .ok .hashRead := by decide

theorem test_decode_counter32 :
    decode ⟨0b01110000, 7, 9⟩ = .ok .c32New ∧
    decode ⟨0b01110001, 7, 9⟩ = .ok (.c32GetAdd 9) := by decide

theorem test_decode_counter64 :
    decode ⟨0b10000000, 7, 9⟩ = .ok .c64New ∧
    decode ⟨0b10000001, 7, 9⟩ = .ok (.c64GetAdd 9) := by decide

/-- A word of 136 bits: opcode, then bus `a`, then bus `b` (assumption log 3). -/
theorem test_decode_word :
    decodeTableWord 136 (9 * 2 ^ 72 + 7 * 2 ^ 8 + 0x46) = some (.shru64 7 9) ∧ decodeTableWord 8 0x60 = some .hashClr ∧
      decodeTableWord 8 0x43 = none := by decide
/-- The word that `withFetchWord` places is what the next step runs (C32_NEW, R95). -/
theorem test_fetch_word : step (State.reset.withFetchWord 8 0x70) =
    .next { State.reset with responses := [.ok 0] } := by rfl

/-! ## One step of each command -/

/-- Registers that no command of units 0 to 5 may change. -/
def r0 : State := idle 5 6 7

/-- R51 example. -/
theorem test_i32ToI64_example : one r0 0x00 0xFFFFFFFE 0x0 = some (.ok 0xFFFFFFFFFFFFFFFE, 5, 6, 7) := by decide +kernel
/-- R51 corner case -2^31. -/
theorem test_i32ToI64_min : one r0 0x00 0x80000000 0x0 = some (.ok 0xFFFFFFFF80000000, 5, 6, 7) := by decide +kernel
/-- R52 example. -/
theorem test_i64ToI32_example : one r0 0x01 0x123456789ABCDEF0 0x0 = some (.ok 0xFFFFFFFF9ABCDEF0, 5, 6, 7) := by decide +kernel
/-- R52 corner case 2^32. -/
theorem test_i64ToI32_low_half_only : one r0 0x01 0x100000000 0x0 = some (.ok 0x0, 5, 6, 7) := by decide +kernel
/-- R53 example. -/
theorem test_i32ToI32_example : one r0 0x02 0xDEADBEEF00000005 0x0 = some (.ok 0x5, 5, 6, 7) := by decide +kernel
/-- R54 example. -/
theorem test_i64ToI64_example : one r0 0x03 0x8000000000000000 0x0 = some (.ok 0x8000000000000000, 5, 6, 7) := by decide +kernel
/-- R57 corner case 2^31. -/
theorem test_f32ToI32_saturates : one r0 0x10 0x4F000000 0x0 = some (.ok 0x7FFFFFFF, 5, 6, 7) := by decide +kernel
/-- R57 corner case -1.5f gives -1. -/
theorem test_f32ToI32_truncates : one r0 0x10 0xBFC00000 0x0 = some (.ok 0xFFFFFFFFFFFFFFFF, 5, 6, 7) := by decide +kernel
/-- R58 example. -/
theorem test_f32ToI64_example : one r0 0x11 0x501502F9 0x0 = some (.ok 0x2540BE400, 5, 6, 7) := by decide +kernel
/-- R58 corner case -2^63. -/
theorem test_f32ToI64_min : one r0 0x11 0xDF000000 0x0 = some (.ok 0x8000000000000000, 5, 6, 7) := by decide +kernel
/-- R59 corner case 2147483647.9. -/
theorem test_f64ToI32_max : one r0 0x12 0x41DFFFFFFFF9999A 0x0 = some (.ok 0x7FFFFFFF, 5, 6, 7) := by decide +kernel
/-- R59 corner case NaN gives 0. -/
theorem test_f64ToI32_nan : one r0 0x12 0x7FF8000000000000 0x0 = some (.ok 0x0, 5, 6, 7) := by decide +kernel
/-- R60 corner case 123456789.75. -/
theorem test_f64ToI64_truncates : one r0 0x13 0x419D6F3457000000 0x0 = some (.ok 0x75BCD15, 5, 6, 7) := by decide +kernel
/-- R60 corner case 2^63. -/
theorem test_f64ToI64_saturates : one r0 0x13 0x43E0000000000000 0x0 = some (.ok 0x7FFFFFFFFFFFFFFF, 5, 6, 7) := by decide +kernel
/-- R63 corner case 2^24 + 1. -/
theorem test_i32ToF32_tie : one r0 0x20 0x1000001 0x0 = some (.ok 0x4B800000, 5, 6, 7) := by decide +kernel
/-- R63 example. -/
theorem test_i32ToF32_example : one r0 0x20 0xFFFFFFFFFFFFFFFF 0x0 = some (.ok 0xBF800000, 5, 6, 7) := by decide +kernel
/-- R64 corner case. -/
theorem test_i32ToF64_max : one r0 0x21 0x7FFFFFFF 0x0 = some (.ok 0x41DFFFFFFFC00000, 5, 6, 7) := by decide +kernel
/-- R64 corner case. -/
theorem test_i32ToF64_min : one r0 0x21 0x80000000 0x0 = some (.ok 0xC1E0000000000000, 5, 6, 7) := by decide +kernel
/-- R65 corner case 2^40 + 2^16 + 1. -/
theorem test_i64ToF32_rounds_once : one r0 0x22 0x10000010001 0x0 = some (.ok 0x53800001, 5, 6, 7) := by decide +kernel
/-- R65 example. -/
theorem test_i64ToF32_example : one r0 0x22 0x7FFFFFFFFFFFFFFF 0x0 = some (.ok 0x5F000000, 5, 6, 7) := by decide +kernel
/-- R66 example. -/
theorem test_i64ToF64_example : one r0 0x23 0x20000000000001 0x0 = some (.ok 0x4340000000000000, 5, 6, 7) := by decide +kernel
/-- R66 corner case 2^53 + 3. -/
theorem test_i64ToF64_tie_up : one r0 0x23 0x20000000000003 0x0 = some (.ok 0x4340000000000002, 5, 6, 7) := by decide +kernel
/-- R68 corner case 2^-149. -/
theorem test_f32ToF64_subnormal : one r0 0x30 0x1 0x0 = some (.ok 0x36A0000000000000, 5, 6, 7) := by decide +kernel
/-- R68 corner case 0.1f. -/
theorem test_f32ToF64_tenth : one r0 0x30 0x3DCCCCCD 0x0 = some (.ok 0x3FB99999A0000000, 5, 6, 7) := by decide +kernel
/-- R69 corner case, the threshold. -/
theorem test_f64ToF32_overflow : one r0 0x31 0x47EFFFFFF0000000 0x0 = some (.ok 0x7F800000, 5, 6, 7) := by decide +kernel
/-- R69 corner case 0.75 * 2^-149. -/
theorem test_f64ToF32_subnormal : one r0 0x31 0x3698000000000000 0x0 = some (.ok 0x1, 5, 6, 7) := by decide +kernel
/-- R70 example, upper half dropped. -/
theorem test_f32ToF32_example : one r0 0x32 0xDEADBEEF7FA00001 0x0 = some (.ok 0x7FA00001, 5, 6, 7) := by decide +kernel
/-- R71 example. -/
theorem test_f64ToF64_example : one r0 0x33 0xFFF8000000000001 0x0 = some (.ok 0xFFF8000000000001, 5, 6, 7) := by decide +kernel
/-- R75 example. -/
theorem test_shl32_example : one r0 0x40 0x3 0x23 = some (.ok 0x18, 5, 6, 7) := by decide +kernel
/-- R75 corner cases, 1 by 31, amount -1. -/
theorem test_shl32_sign : one r0 0x40 0x1 0xFFFFFFFFFFFFFFFF = some (.ok 0xFFFFFFFF80000000, 5, 6, 7) := by decide +kernel
/-- R76 example. -/
theorem test_shrs32_example : one r0 0x41 0xFFFFFFF9 0x1 = some (.ok 0xFFFFFFFFFFFFFFFC, 5, 6, 7) := by decide +kernel
/-- R77 example. -/
theorem test_shru32_example : one r0 0x42 0xFFFFFFFFFFFFFFFF 0x1C = some (.ok 0xF, 5, 6, 7) := by decide +kernel
/-- R77 corner case. -/
theorem test_shru32_upper_half : one r0 0x42 0xDEADBEEF80000000 0x4 = some (.ok 0x8000000, 5, 6, 7) := by decide +kernel
/-- R78 example. -/
theorem test_shl64_example : one r0 0x44 0x3 0x23 = some (.ok 0x1800000000, 5, 6, 7) := by decide +kernel
/-- R79 example. -/
theorem test_shrs64_example : one r0 0x45 0x8000000000000000 0x3C = some (.ok 0xFFFFFFFFFFFFFFF8, 5, 6, 7) := by decide +kernel
/-- R80 example. -/
theorem test_shru64_example : one r0 0x46 0xFFFFFFFFFFFFFFFF 0x3F = some (.ok 0x1, 5, 6, 7) := by decide +kernel
/-- R80 corner case. -/
theorem test_shru64_by_32 : one r0 0x46 0xFFFFFFFFFFFFFFFF 0x20 = some (.ok 0xFFFFFFFF, 5, 6, 7) := by decide +kernel
/-- R83 example. -/
theorem test_rem32_example : one r0 0x50 0xFFFFFFF9 0x3 = some (.ok 0xFFFFFFFFFFFFFFFF, 5, 6, 7) := by decide +kernel
/-- R83 corner case. -/
theorem test_rem32_divisor_low_half : one r0 0x50 0x5 0x100000000 = some (.divideByZero, 5, 6, 7) := by decide +kernel
/-- R84 example. -/
theorem test_rem64_example : one r0 0x51 0x8000000000000000 0xFFFFFFFFFFFFFFFF = some (.ok 0x0, 5, 6, 7) := by decide +kernel
/-- R84 exceptions. -/
theorem test_rem64_zero : one r0 0x51 0x7 0x0 = some (.divideByZero, 5, 6, 7) := by decide +kernel
/-- R86 example. -/
theorem test_frem32_example : one r0 0x52 0xC0B00000 0x40000000 = some (.ok 0xBFC00000, 5, 6, 7) := by decide +kernel
/-- R86 corner case 1e30f rem 7.0f. -/
theorem test_frem32_exact : one r0 0x52 0x7149F2CA 0x40E00000 = some (.ok 0x3F800000, 5, 6, 7) := by decide +kernel
/-- R87 example. -/
theorem test_frem64_example : one r0 0x53 0x4024000000000000 0x4008000000000000 = some (.ok 0x3FF0000000000000, 5, 6, 7) := by decide +kernel
/-- R87 corner case 1.0 rem 0.1. -/
theorem test_frem64_exact : one r0 0x53 0x3FF0000000000000 0x3FB999999999999A = some (.ok 0x3FB9999999999996, 5, 6, 7) := by decide +kernel
/-- R90: HASH_CLR. -/
theorem test_hashClr : one (idle 5 6 97) 0x60 1 2 = some (.ok 0, 5, 6, 0) := by decide +kernel
/-- R91 example: from 'a', HASH_STEP 'b' gives 3105. -/
theorem test_hashStep_example : one (idle 5 6 97) 0x61 1 0x62 = some (.ok 3105, 5, 6, 3105) := by decide +kernel
/-- R91: `b[63:16]` is ignored, and the result is sign-extended; worked by hand: (2^31 - 1) * 31 + 65535
is 2^31 + 65504 modulo 2^32. -/
theorem test_hashStep_wraps :
    one (idle 5 6 0x7FFFFFFF) 0x61 1 0xABCD0000FFFF = some (.ok 0xFFFFFFFF8000FFE0, 5, 6, 0x8000FFE0) := by
  decide +kernel
/-- R92 example. -/
theorem test_hashRead : one (idle 5 6 3105) 0x62 1 2 = some (.ok 3105, 5, 6, 3105) := by decide +kernel
/-- R95: the previous value is not returned. -/
theorem test_c32New : one (idle 5 6 7) 0x70 1 2 = some (.ok 0, 0, 6, 7) := by decide +kernel
/-- R96 corner case: from 0x7FFFFFFF, delta 1. -/
theorem test_c32GetAdd_wraps :
    one (idle 0x7FFFFFFF 6 7) 0x71 1 1 = some (.ok 2147483647, 0x80000000, 6, 7) := by decide +kernel
/-- R98 corner case: a delta bus of 2^32 adds 0 to Counter32. -/
theorem test_c32GetAdd_low_half : one (idle 5 6 7) 0x71 1 0x0000000100000000 = some (.ok 5, 5, 6, 7) := by decide +kernel
/-- R97. -/
theorem test_c64New : one (idle 5 6 7) 0x80 1 2 = some (.ok 0, 5, 0, 7) := by decide +kernel
/-- R98 corner case: from 2^63 - 1, delta 1. -/
theorem test_c64GetAdd_wraps : one (idle 5 0x7FFFFFFFFFFFFFFF 7) 0x81 1 1 =
    some (.ok 0x7FFFFFFFFFFFFFFF, 5, 0x8000000000000000, 7) := by decide +kernel
/-- R98 corner case: a delta bus of 2^32 adds 2^32 to Counter64. -/
theorem test_c64GetAdd_whole_bus :
    one (idle 5 6 7) 0x81 1 0x0000000100000000 = some (.ok 6, 5, 0x100000006, 7) := by decide +kernel
/-- R46, R104: a reserved opcode. -/
theorem test_illegalCommand : one r0 0x43 1 2 = some (.illegalCommand, 5, 6, 7) := by decide +kernel
/-- R87 corner case 1.0 rem -0.0: some NaN, whatever the open parameter is (R5). -/
theorem test_frem64_zero_divisor :
    one r0 0x53 0x3FF0000000000000 0x8000000000000000 =
      some (.ok (pNan64 0x53 0x3FF0000000000000 0x8000000000000000), 5, 6, 7) := by rfl

/-! ## The notation (R48, R49) -/

/-- R75 example. -/
theorem test_assemble_shift : assemble "SHL32 3, 35".toList = some ⟨0x40, 3, 35⟩ := by decide +kernel
/-- R86 corner case, decimals with a suffix. -/
theorem test_assemble_float :
    assemble "FREM32 -5.5f, 2.0f".toList = some ⟨0x52, 0xC0B00000, 0x40000000⟩ := by decide +kernel
/-- R60 example. -/
theorem test_assemble_pattern :
    assemble "F64_TO_I64 f64:0x3FF0000000000000".toList = some ⟨0x13, 0x3FF0000000000000, 0⟩ := by decide +kernel
/-- R91 example; its operand goes on bus `b`. -/
theorem test_assemble_char : assemble "HASH_STEP 'a'".toList = some ⟨0x61, 0, 0x61⟩ := by decide +kernel
/-- R48: a decimal that is not exact in binary32 is no literal. -/
theorem test_assemble_inexact : assemble "F32_TO_I32 0.1f".toList = none := by decide +kernel
/-- R49. -/
theorem test_pseudo_hash : readPseudo .int32 "HASHSTR \"ab\"".toList = some (.hashStr [0x61, 0x62]) := by decide +kernel
/-- R49. -/
theorem test_pseudo_convert :
    (readPseudo .int32 "toInt32 1.0f".toList).map Pseudo.expand = some [.f32ToI32 0x3F800000] := by decide +kernel
/-- R93: the value the spec derives for `hash("HelloWorld")`. -/
theorem test_hash_helloWorld :
    BitVec.ofNat 32 (hashSum ("HelloWorld".toList.flatMap codeUnits)) = 439329280#32 := by decide +kernel
/-- R48, R52 example. -/
theorem test_render : (Response.ok 0xFFFFFFFF9ABCDEF0).render = "-> 0xFFFFFFFF9ABCDEF0".toList := by decide +kernel

/-! ## Witnesses: concrete values that meet the hypotheses of each obligation, clause by clause -/

theorem witness_DecodedRequestReencodes : decode ⟨0x61, 3, 9⟩ = .ok (.hashStep 9) := by decide

/-- Both ends of each reserved range. -/
theorem witness_ReservedOpcodesRefused :
    ∀ op ∈ ([0x04, 0x0F, 0x14, 0x1F, 0x24, 0x2F, 0x34, 0x3F, 0x43, 0x47, 0x48, 0x4F, 0x54, 0x5F, 0x63, 0x6F, 0x72, 0x7F,
        0x82, 0x8F, 0x90, 0xFF] : List Opcode), (decode ⟨op, 1, 2⟩).isOk = false := by decide +kernel

/-- The two sides of each boundary. -/
theorem witness_DecodedIffFieldsAllowed :
    (decode ⟨0x03, 1, 2⟩).isOk = true ∧ (decode ⟨0x04, 1, 2⟩).isOk = false ∧ (decode ⟨0x81, 1, 2⟩).isOk = true ∧
      (decode ⟨0x82, 1, 2⟩).isOk = false := by decide

/-- A state with these inputs on its port. -/
def withInputs (ins : List PortInput) : State := { idle 5 6 7 with inputs := ins }

theorem witness_ResetClearsRegisters : (withInputs [.reset, .command ⟨0x70, 1, 2⟩]).inputs =
    .reset :: [.command ⟨0x70, 1, 2⟩] := rfl

theorem witness_StepRunsDecodedCommand : (withInputs [.command ⟨0x46, 7, 9⟩, .reset]).inputs =
    .command ⟨0x46, 7, 9⟩ :: [.reset] ∧ decode ⟨0x46, 7, 9⟩ = .ok (.shru64 7 9) := by decide

theorem witness_ReservedOpcodeAnsweredIllegal : (withInputs [.command ⟨0x47, 7, 9⟩]).inputs =
    .command ⟨0x47, 7, 9⟩ :: [] ∧ IsReserved 0x47 := ⟨rfl, by unfold IsReserved; decide⟩

theorem witness_EveryStepCompletes : (withInputs [.command ⟨0x47, 7, 9⟩]).inputs = .command ⟨0x47, 7, 9⟩ :: [] := rfl

theorem witness_IdleKeepsState : (idle 5 6 7).inputs = [] := rfl

theorem witness_OneResponsePerCommandInOrder : (withInputs [.command ⟨0x71, 0, 4⟩, .command ⟨0xFF, 0, 0⟩, .reset]).inputs =
    .command ⟨0x71, 0, 4⟩ :: .command ⟨0xFF, 0, 0⟩ :: [.reset] := rfl

/-- A ledger that is not 0, before and after a step. -/
theorem witness_StepKeepsLedger :
    (withInputs [.command ⟨0x71, 0, 4⟩, .command ⟨0x61, 0, 1⟩]).ledger = ⟨9, 6, 218, 2⟩ ∧
      step (withInputs [.command ⟨0x71, 0, 4⟩, .command ⟨0x61, 0, 1⟩]) =
        .next { withInputs [.command ⟨0x61, 0, 1⟩] with ctr32 := 9, responses := [.ok 5] } := ⟨by decide, rfl⟩

/-- The hypothesis (R52 example); the bounds of the range that narrows without change, and a value outside each. -/
theorem witness_NarrowingChangesOnlyOutOfRange :
    exec (.i64ToI32 0x123456789ABCDEF0) r0 = .next (afterOk r0 0xFFFFFFFF9ABCDEF0) ∧
    ((0x7FFFFFFF : Bus).setWidth 32).toInt = (0x7FFFFFFF : Bus).toInt ∧
    ((0x80000000 : Bus).setWidth 32).toInt ≠ (0x80000000 : Bus).toInt ∧
    ((0xFFFFFFFF80000000 : Bus).setWidth 32).toInt = (0xFFFFFFFF80000000 : Bus).toInt ∧
    ((0xFFFFFFFF7FFFFFFF : Bus).setWidth 32).toInt ≠ (0xFFFFFFFF7FFFFFFF : Bus).toInt :=
  ⟨rfl, by decide, by decide, by decide, by decide⟩

/-- For FloatPatternsDecode, each clause of R16 at the ends of its range, in binary32: the exponent field of a NaN, an infinity, the greatest subnormal, the
least and the greatest normal number. -/
theorem witness_FloatPatternsDecode_binary32 :
    unpack32 0xFFFFFFFF = ⟨true, 255, 0x7FFFFF⟩ ∧ unpack32 0x7F800000 = ⟨false, 255, 0⟩ ∧
    unpack32 0x807FFFFF = ⟨true, 0, 0x7FFFFF⟩ ∧ unpack32 0x00800000 = ⟨false, 1, 0⟩ ∧
    unpack32 0x7F7FFFFF = ⟨false, 254, 0x7FFFFF⟩ := by decide

/-- The same in binary64. -/
theorem witness_FloatPatternsDecode_binary64 :
    unpack64 0xFFFFFFFFFFFFFFFF = ⟨true, 2047, 0xFFFFFFFFFFFFF⟩ ∧ unpack64 0x7FF0000000000000 = ⟨false, 2047, 0⟩ ∧
    unpack64 0x800FFFFFFFFFFFFF = ⟨true, 0, 0xFFFFFFFFFFFFF⟩ ∧ unpack64 0x0010000000000000 = ⟨false, 1, 0⟩ ∧
    unpack64 0x7FEFFFFFFFFFFFFF = ⟨false, 2046, 0xFFFFFFFFFFFFF⟩ := by decide

/-- For Float32ToInt32TruncatesAndSaturates, Float32ToInt64TruncatesAndSaturates, Float32WidensExactly and
Float32Remainder, each kind of binary32 operand: NaN, both infinities, both zeros, and a number, 2^31. -/
theorem witness_float32_operands :
    fval32 0x7FC00001 = .nan ∧ fval32 0x7F800000 = .inf false ∧ fval32 0xFF800000 = .inf true ∧ fval32 0 = .zero false ∧
    fval32 0x80000000 = .zero true ∧ fval32 0x4F000000 = .finite false 0x800000 8 := by decide

/-- For Float64ToInt32TruncatesAndSaturates, Float64ToInt64TruncatesAndSaturates, Float64NarrowsToNearest and
Float64Remainder, each kind of binary64 operand: NaN, both infinities, both zeros, and a number, 1 (R60). -/
theorem witness_float64_operands :
    fval64 0x7FF8000000000000 = .nan ∧ fval64 0x7FF0000000000000 = .inf false ∧ fval64 0xFFF0000000000000 = .inf true ∧
    fval64 0 = .zero false ∧ fval64 0x8000000000000000 = .zero true ∧
    fval64 0x3FF0000000000000 = .finite false 0x10000000000000 (-52) := by decide

/-- For Int32ToFloat32RoundsToNearest, Int32ToFloat64RoundsToNearest, Int64ToFloat32RoundsOnce and Int64ToFloat64RoundsToNearest:
the clauses for zero and for a number. -/
theorem witness_int_to_float : ((0xDEADBEEF00000000 : Bus).setWidth 32).toInt = 0 ∧
    ((0x80000000 : Bus).setWidth 32).toInt ≠ 0 ∧ (0 : Bus).toInt = 0 ∧ (0x8000000000000000 : Bus).toInt ≠ 0 := by decide

/-- 1, as both formats (for Int32ToFloat64IsExact too). -/
theorem witness_IntToFloatStaysFinite :
    (after (.i32ToF32 1) r0).responses.getLast? = some (.ok 0x3F800000) ∧
    (after (.i64ToF32 1) r0).responses.getLast? = some (.ok 0x3F800000) ∧
    (after (.i32ToF64 1) r0).responses.getLast? = some (.ok 0x3FF0000000000000) ∧
    (after (.i64ToF64 1) r0).responses.getLast? = some (.ok 0x3FF0000000000000) := by decide +kernel

/-- A number with a rational value other than 0, of each format (for Float32WidensExactly too). -/
theorem witness_Float64NarrowsToNearest :
    (∃ q, (fval64 0x3FF0000000000000).toRat = some q ∧ q ≠ 0) ∧ ∃ q, (fval32 0x4F000000).toRat = some q := by
  refine ⟨⟨_, congrArg FpValue.toRat witness_float64_operands.2.2.2.2.2, ?_⟩,
    _, congrArg FpValue.toRat witness_float32_operands.2.2.2.2.2⟩
  simp [signFactor]

/-- R69: the threshold, and the pattern below it. -/
theorem witness_Float64NarrowingOverflowThreshold :
    (∃ q, (fval64 0x47EFFFFFF0000000).toRat = some q) ∧ (∃ q, (fval64 0x47EFFFFFEFFFFFFF).toRat = some q) ∧
    (after (.f64ToF32 0x47EFFFFFF0000000) r0).responses.getLast? = some (.ok 0x7F800000) ∧
    (after (.f64ToF32 0x47EFFFFFEFFFFFFF) r0).responses.getLast? = some (.ok 0x7F7FFFFF) :=
  ⟨⟨_, rfl⟩, ⟨_, rfl⟩, by decide +kernel, by decide +kernel⟩

/-- R69: 0.1, which binary32 has not; and 1, which it has. -/
theorem witness_NarrowThenWidenRoundTrip :
    fval64 0x3FB999999999999A ≠ .nan ∧
    (after (.f64ToF32 0x3FB999999999999A) r0).responses.getLast? = some (.ok 0x3DCCCCCD) ∧
    (after (.f32ToF64 0x3DCCCCCD) (after (.f64ToF32 0x3FB999999999999A) r0)).responses.getLast? =
      some (.ok 0x3FB99999A0000000) ∧
    (after (.f32ToF64 0x3F800000) (after (.f64ToF32 0x3FF0000000000000) r0)).responses.getLast? =
      some (.ok 0x3FF0000000000000) := by decide +kernel

/-- Each clause: a shift by the width, of a negative value, and the least and the greatest masked amount. -/
theorem witness_ShiftLaws :
    (after (.shl64 0x8000000000000000 64) r0).responses.getLast? = some (.ok 0x8000000000000000) ∧
    (after (.shru32 0xFFFFFFF8 32) r0).responses.getLast? = some (.ok 0xFFFFFFFFFFFFFFF8) ∧
    (after (.shru32 0xFFFFFFFF 1) r0).responses.getLast? = some (.ok 0x7FFFFFFF) ∧ (1 : Bus).toNat % 32 ≠ 0 ∧
    (after (.shru32 0xFFFFFFFF 31) r0).responses.getLast? = some (.ok 1) ∧
    (after (.shru64 0xFFFFFFFFFFFFFFFF 1) r0).responses.getLast? = some (.ok 0x7FFFFFFFFFFFFFFF) ∧
    (after (.shrs32 0xFFFFFFFF 31) r0).responses.getLast? = some (.ok 0xFFFFFFFFFFFFFFFF) ∧
    (after (.shrs64 0x8000000000000000 63) r0).responses.getLast? = some (.ok 0xFFFFFFFFFFFFFFFF) := by decide +kernel

/-- Both clauses, with an upper half that is ignored in the second. -/
theorem witness_Int32Remainder : (0xFFFFFFFF : Bus).setWidth 32 ≠ 0#32 ∧ (0x0000000100000000 : Bus).setWidth 32 = 0#32 := by
  decide

theorem witness_Int64Remainder : (0x0000000100000000 : Bus) ≠ 0 ∧ (0 : Bus) = 0 := by decide

theorem witness_RemainderLaw : (3 : Int) ≠ 0 ∧ truncRem (-7) 3 ≠ 0 ∧ truncRem (-2 ^ 31) (-1) = 0 := by decide

/-- 5.5 rem 2.0 in both formats (R86; for binary64 the same numbers). -/
theorem witness_FloatRemainderIsSmallAndSigned :
    (after (.frem32 0xC0B00000 0x40000000) r0).responses.getLast? = some (.ok 0xBFC00000) ∧
    fval32 ((0xBFC00000 : Bus).setWidth 32) ≠ .nan ∧
    (after (.frem64 0x4016000000000000 0x4000000000000000) r0).responses.getLast? = some (.ok 0x3FF8000000000000) ∧
    fval64 0x3FF8000000000000 ≠ .nan := by decide +kernel

/-- "ab" from a state whose hash is not 0, with a command after it. -/
theorem witness_HashStringOfAnySequence :
    (withInputs [.command ⟨0x60, 0, 0⟩, .command ⟨0x61, 0, 0x61⟩, .command ⟨0x61, 0, 0x62⟩, .command ⟨0x62, 0, 0⟩,
      .command ⟨0x70, 0, 0⟩]).inputs =
    (Pseudo.hashStr [0x61, 0x62]).expand.map (fun i => .command (encode i)) ++ [.command ⟨0x70, 0, 0⟩] := by decide

/-- One writer, whose other two registers are kept, for each clause. -/
theorem witness_CommandsWriteOnlyTheirRegister :
    exec .hashClr r0 = .next { r0 with hash := 0, responses := [.ok 0] } ∧
    exec .c32New r0 = .next { r0 with ctr32 := 0, responses := [.ok 0] } ∧
    Instr.hashClr.opcode ∉ ([0x70, 0x71] : List Opcode) ∧ Instr.hashClr.opcode ∉ ([0x80, 0x81] : List Opcode) ∧
    Instr.c32New.opcode ∉ ([0x60, 0x61] : List Opcode) := ⟨rfl, rfl, by decide, by decide, by decide⟩

/-- Each register, changed by a command of its own, and by a reset. -/
theorem witness_RegistersChangedOnlyByTheirCommands :
    (after (.c32GetAdd 1) r0).ctr32 ≠ r0.ctr32 ∧ (after (.c64GetAdd 1) r0).ctr64 ≠ r0.ctr64 ∧
    (after (.hashStep 1) r0).hash ≠ r0.hash ∧
    step (withInputs [.reset]) = .next (idle 0 0 0) := ⟨by decide, by decide, by decide, rfl⟩

/-- Buses that differ only where a command does not read. -/
theorem witness_UnreadBitsAreIgnored :
    (0xDEADBEEF00000005 : Bus).setWidth 32 = (5 : Bus).setWidth 32 ∧ (0x23 : Bus).setWidth 5 = (3 : Bus).setWidth 5 ∧
    (0xABCD0061 : Bus).setWidth 16 = (0x61 : Bus).setWidth 16 ∧ (0x3F : Opcode) ≤ 0x3F ∧ (0x60 : Opcode) ≤ 0x60 := by
  decide

/-- A result of each type: 1, as all four (R57, R58, R63, R64). -/
theorem witness_ResultsArePlacedByType :
    (after (.f32ToI32 0x3F800000) r0).responses.getLast? = some (.ok 1) ∧
    (after (.f32ToI64 0x3F800000) r0).responses.getLast? = some (.ok 1) ∧
    (after (.i32ToF32 1) r0).responses.getLast? = some (.ok 0x3F800000) ∧
    (after (.i32ToF64 1) r0).responses.getLast? = some (.ok 0x3FF0000000000000) := by decide +kernel

/-- For DivideByZeroExactlyForZeroDivisors and IllegalCommandExactlyForReserved: REM32 by 0, REM64 by 0, a reserved opcode, and another command. -/
theorem witness_answers :
    runCommand ⟨0x50, 5, 0x0000000100000000⟩ r0 = .next { r0 with responses := [.divideByZero] } ∧
    runCommand ⟨0x51, 5, 0⟩ r0 = .next { r0 with responses := [.divideByZero] } ∧
    runCommand ⟨0x47, 5, 0⟩ r0 = .next { r0 with responses := [.illegalCommand] } ∧
    runCommand ⟨0x70, 5, 0⟩ r0 = .next { r0 with ctr32 := 0, responses := [.ok 0] } ∧ ¬ IsReserved 0x70 :=
  ⟨rfl, rfl, rfl, rfl, by unfold IsReserved; decide⟩

theorem witness_ErrorsWriteNothingAndRepeat :
    runCommand ⟨0x51, 5, 0⟩ r0 = .next { r0 with responses := [.divideByZero] } ∧
      Response.divideByZero.status ≠ 0 ∧ Response.illegalCommand.status ≠ 0 := ⟨rfl, by decide, by decide⟩

/-- Each disjunct: HASH_CLR, and both GETADDs of delta 0, the 32-bit one with an upper half that is ignored. -/
theorem witness_CommandsButThreeAreIdempotent :
    Instr.hashClr.opcode ∉ ([0x61, 0x71, 0x81] : List Opcode) ∧
    (after (.c64GetAdd 0) (after (.c64GetAdd 0) r0)).registers = (5, 6, 7) ∧
    (0x0000000100000000 : Bus).setWidth 32 = 0#32 := by decide

/-- Two states that agree on the registers and on nothing else. -/
theorem witness_OnlyRegistersDecideTheResponse :
    (withInputs [.reset]).registers = ({ r0 with responses := [.ok 1] } : State).registers ∧
    runCommand ⟨0x71, 0, 1⟩ (withInputs [.reset]) = .next { withInputs [.reset] with ctr32 := 6, responses := [.ok 5] } :=
  ⟨rfl, rfl⟩

theorem witness_TypedConversionIsTheOneCommand :
    (Instr.f32ToI64 1).opcode ≤ 0x3F ∧ (Instr.f32ToI64 1).operandKinds = [.num .float32] ∧
      (Instr.f32ToI64 1).resultType = .int64 := by decide

end Sys2Proof.Tests
end

/-! ## Which commands write which register (10_state.md R22 to R24, R26) -/

section
namespace Sys2Proof.Machine

/-- Of the registers, the part `part` is changed by no command whose opcode is outside `ops`. -/
def WrittenOnlyBy {α : Type} (part : BitVec 32 × BitVec 64 × BitVec 32 → α) (ops : List Opcode) : Prop :=
  ∀ (i : Instr) (s : State), i.opcode ∉ ops → part (registersAfter i s) = part s.registers

/-- R22, for commands. -/
theorem ctr32_writtenOnlyBy : WrittenOnlyBy (fun g => g.1) [0x70, 0x71] := by
  intro i s hi
  cases i with
  | c32New => exact absurd List.mem_cons_self hi
  | c32GetAdd b => exact absurd (List.mem_cons_of_mem _ List.mem_cons_self) hi
  | _ => rfl

/-- R23, for commands. -/
theorem ctr64_writtenOnlyBy : WrittenOnlyBy (fun g => g.2.1) [0x80, 0x81] := by
  intro i s hi
  cases i with
  | c64New => exact absurd List.mem_cons_self hi
  | c64GetAdd b => exact absurd (List.mem_cons_of_mem _ List.mem_cons_self) hi
  | _ => rfl

/-- R24, for commands. -/
theorem hash_writtenOnlyBy : WrittenOnlyBy (fun g => g.2.2) [0x60, 0x61] := by
  intro i s hi
  cases i with
  | hashClr => exact absurd List.mem_cons_self hi
  | hashStep b => exact absurd (List.mem_cons_of_mem _ List.mem_cons_self) hi
  | _ => rfl

/-- What a step can do: idle, a reset, or the run of the next request. -/
theorem step_cases {s t : State} (h : step s = .next t) :
    (s.inputs = [] ∧ t = s) ∨
    (∃ rest, s.inputs = .reset :: rest ∧ t = State.resetRegisters { s with inputs := rest }) ∨
    ∃ r rest, s.inputs = .command r :: rest ∧ runCommand r { s with inputs := rest } = .next t := by
  match hin : s.inputs with
  | [] =>
    rw [step_idle hin] at h
    exact .inl ⟨rfl, (Host.Outcome.next.inj h).symm⟩
  | .reset :: rest =>
    rw [step_reset hin] at h
    exact .inr (.inl ⟨rest, rfl, (Host.Outcome.next.inj h).symm⟩)
  | .command r :: rest => exact .inr (.inr ⟨r, rest, rfl, step_command hin ▸ h⟩)

section
variable {α : Type} {part : BitVec 32 × BitVec 64 × BitVec 32 → α} {ops : List Opcode} {s t : State}

theorem WrittenOnlyBy.exec_eq (hw : WrittenOnlyBy part ops) {i : Instr} (h : exec i s = .next t)
    (hi : i.opcode ∉ ops) : part t.registers = part s.registers := by
  obtain ⟨-, -, hg⟩ := exec_inv h
  rw [hg, hw i s hi]

/-- A request outside the list keeps the part too; a reserved opcode keeps every register (R103). -/
theorem WrittenOnlyBy.runCommand_eq (hw : WrittenOnlyBy part ops) {r : Request} (h : runCommand r s = .next t)
    (hr : r.op ∉ ops) : part t.registers = part s.registers := by
  cases hd : decode r with
  | error e =>
    rw [runCommand_error hd] at h
    cases h
    rfl
  | ok i =>
    rw [runCommand_ok hd] at h
    exact hw.exec_eq h (opcode_of_decode hd ▸ hr)

/-- A step that changes a part written by two commands only took a reset, or one of the two. -/
theorem WrittenOnlyBy.inputs_of_step_ne {op₁ op₂ : Opcode} (hw : WrittenOnlyBy part [op₁, op₂])
    (h : step s = .next t) (hne : part t.registers ≠ part s.registers) :
    ∃ rest, s.inputs = .reset :: rest ∨
      ∃ a b, s.inputs = .command ⟨op₁, a, b⟩ :: rest ∨ s.inputs = .command ⟨op₂, a, b⟩ :: rest := by
  obtain ⟨-, rfl⟩ | ⟨rest, hin, -⟩ | ⟨⟨op, a, b⟩, rest, hin, hrun⟩ := step_cases h
  · exact absurd rfl hne
  · exact ⟨rest, .inl hin⟩
  · have keep := hw.runCommand_eq hrun
    have hop : op ∈ [op₁, op₂] := by_contra fun hnot => hne (keep hnot)
    obtain rfl | rfl : op = op₁ ∨ op = op₂ := by simpa using hop
    · exact ⟨rest, .inr ⟨a, b, .inl hin⟩⟩
    · exact ⟨rest, .inr ⟨a, b, .inr hin⟩⟩

end

/-- Settles O50: what a command does is `registersAfter`, and that writes each register by its own two commands only. -/
theorem commandsWriteOnlyTheirRegister : Obligations.CommandsWriteOnlyTheirRegister := by
  intro i s t h
  obtain ⟨hin, hresp, -⟩ := exec_inv h
  exact ⟨ctr32_writtenOnlyBy.exec_eq h, ctr64_writtenOnlyBy.exec_eq h, hash_writtenOnlyBy.exec_eq h, hin, hresp⟩

/-- Settles O51, by the cases of a step: idle changes nothing, and a request only what its command writes. -/
theorem registersChangedOnlyByTheirCommands : Obligations.RegistersChangedOnlyByTheirCommands :=
  ⟨rfl, fun _ _ h => ⟨ctr32_writtenOnlyBy.inputs_of_step_ne h, ctr64_writtenOnlyBy.inputs_of_step_ne h,
    hash_writtenOnlyBy.inputs_of_step_ne h⟩⟩

end Sys2Proof.Machine
end

/-! ## Commands run one at a time, in the order of issue (20_memory.md R36) -/

section
namespace Sys2Proof.Machine

/-- What a step does with a command at the head of the port: it runs that command alone, takes it off the port, and
appends its one response (R13, R36). -/
theorem step_command_effect {s : State} {r : Request} {rest : List PortInput} (h : s.inputs = .command r :: rest) :
    ∃ t p, step s = .next t ∧ runCommand r { s with inputs := rest } = .next t ∧ t.inputs = rest ∧
      t.responses = s.responses ++ [p] := by
  obtain ⟨t, p, hrun, hin, hresp⟩ := runCommand_effect r { s with inputs := rest }
  exact ⟨t, p, (step_command h).trans hrun, hrun, hin, hresp⟩

/-- Settles O11: the first step leaves the second command at the head of the port, so the second step is the same fact
about the state the first left. -/
theorem oneResponsePerCommandInOrder : Obligations.OneResponsePerCommandInOrder := by
  intro s r r' rest h
  obtain ⟨t, p, hstep, -, hin, hresp⟩ := step_command_effect h
  obtain ⟨u, p', hstep', hrun', hin', hresp'⟩ := step_command_effect hin
  refine ⟨t, u, p, p', hstep, hin, hresp, hstep', hrun', hin', ?_⟩
  calc u.responses = (s.responses ++ [p]) ++ [p'] := by rw [hresp', hresp]
    _ = s.responses ++ [p, p'] := List.append_assoc ..

end Sys2Proof.Machine
end

/-! ## Reserved opcodes (30_encoding.md R46) -/

section
namespace Sys2Proof.Machine

/-- The ranges R46 lists are exactly the opcodes whose fields R43 and R45 do not allow. -/
theorem isReserved_iff_not_opcodeWellFormed (op : Opcode) : IsReserved op ↔ opcodeWellFormed op = false := by
  have sweep : ∀ op : Opcode, IsReserved op ↔ opcodeWellFormed op = false := by
    unfold IsReserved
    decide
  exact sweep op

/-- The decoder refuses a request exactly when its opcode is in a reserved range, whatever the buses hold (R47). -/
theorem decode_error_iff_isReserved (r : Request) : (∃ e, decode r = .error e) ↔ IsReserved r.op := by
  have hok : (decode r).isOk = opcodeWellFormed r.op := decode_isOk r
  rw [isReserved_iff_not_opcodeWellFormed, ← hok]
  cases decode r with
  | error e => exact ⟨fun _ => rfl, fun _ => ⟨e, rfl⟩⟩
  | ok i => exact ⟨nofun, nofun⟩

/-- Settles O8: the decoder refuses a reserved opcode, and a step on a refused request only answers IllegalCommand. -/
theorem reservedOpcodeAnsweredIllegal : Obligations.ReservedOpcodeAnsweredIllegal := by
  intro s op a b rest hin hreserved
  obtain ⟨e, hdecode⟩ := (decode_error_iff_isReserved ⟨op, a, b⟩).mpr hreserved
  exact (step_command hin).trans (runCommand_error hdecode _)

end Sys2Proof.Machine
end

/-! ## Unit 0: the integer conversions (40_int_conversion.md R51 to R54) -/

section
namespace Sys2Proof.Machine

/-- An Int32 read from a bus and placed on the result bus again is the canonical container of its value (R19, R20). -/
theorem respond_int32_low32 (a : Bus) (s : State) :
    respond (.int32 (low32 a).toInt) s = .next (afterOk s ((a.setWidth 32).signExtend 64)) := by
  rw [respond_eq, place_int32_toInt, low32_eq]

section Exec
variable (a : Bus) (s : State)

/-- I32_TO_I64: the Int32 value needs no reduction at 64 bits, so its container is the low half sign-extended (R51). -/
theorem exec_i32ToI64 : exec (.i32ToI64 a) s = .next (afterOk s ((a.setWidth 32).signExtend 64)) := by
  have meaning : exec (.i32ToI64 a) s = respond (.int64 (low32 a).toInt) s := rfl
  rw [meaning, respond_eq, place_int64_of_int32, low32_eq]

theorem exec_i64ToI32 : exec (.i64ToI32 a) s = .next (afterOk s ((a.setWidth 32).signExtend 64)) :=
  respond_int32_low32 a s

theorem exec_i32ToI32 : exec (.i32ToI32 a) s = .next (afterOk s ((a.setWidth 32).signExtend 64)) :=
  respond_int32_low32 a s

theorem exec_i64ToI64 : exec (.i64ToI64 a) s = .next (afterOk s a) := by
  have meaning : exec (.i64ToI64 a) s = respond (.int64 a.toInt) s := rfl
  rw [meaning, respond_eq, place_int64_toInt]

end Exec

/-- Settles O14: widening and the Int32 identity both answer the low half sign-extended. -/
theorem int32WidensBySignExtension : Obligations.Int32WidensBySignExtension := fun s a _ =>
  ⟨rfl, exec_i32ToI64 a s, (exec_i32ToI64 a s).trans (exec_i32ToI32 a s).symm⟩

/-- Settles O15: the Int32 reading of the bus already drops the upper half. -/
theorem int64NarrowsToLow32Bits : Obligations.Int64NarrowsToLow32Bits := fun s a _ =>
  ⟨rfl, exec_i64ToI32 a s⟩

/-- Settles O17: a value read from a bus and placed again is its canonical container. -/
theorem integerIdentities : Obligations.IntegerIdentities := fun s a _ =>
  ⟨rfl, rfl, exec_i32ToI32 a s, exec_i64ToI64 a s⟩

end Sys2Proof.Machine
end

/-! ## Unit 1: float to integer (41_float_to_int.md R56 to R60) -/

section
namespace Sys2Proof.Machine

/-- An integer result `z` on the bus (R19, R20). No range is asked of `z`: `F2I_N` has clamped it already. -/
theorem respond_int32 (z : Int) (s : State) :
    respond (.int32 z) s = .next (afterOk s ((BitVec.ofInt 32 z).signExtend 64)) := rfl

theorem respond_int64 (z : Int) (s : State) : respond (.int64 z) s = .next (afterOk s (BitVec.ofInt 64 z)) := rfl

section Exec
variable (a : Bus) (s : State)

theorem exec_f32ToI32 : exec (.f32ToI32 a) s = respond (.int32 (floatToInt 32 (fval32 (a.setWidth 32)))) s := by
  rw [← low32_eq]
  rfl

theorem exec_f32ToI64 : exec (.f32ToI64 a) s = respond (.int64 (floatToInt 64 (fval32 (a.setWidth 32)))) s := by
  rw [← low32_eq]
  rfl

theorem exec_f64ToI32 : exec (.f64ToI32 a) s = respond (.int32 (floatToInt 32 (fval64 a))) s := rfl

theorem exec_f64ToI64 : exec (.f64ToI64 a) s = respond (.int64 (floatToInt 64 (fval64 a))) s := rfl

end Exec

/-- Settles O19: the answer is `floatToInt`, which is `F2I_32` of the operand in the low half of the bus. -/
theorem float32ToInt32TruncatesAndSaturates : Obligations.Float32ToInt32TruncatesAndSaturates := fun s a _ =>
  ⟨rfl, floatToInt 32 (fval32 (a.setWidth 32)), floatToInt_spec .., (exec_f32ToI32 a s).trans (respond_int32 ..)⟩

/-- Settles O20: as O19, by `F2I_64`. -/
theorem float32ToInt64TruncatesAndSaturates : Obligations.Float32ToInt64TruncatesAndSaturates := fun s a _ =>
  ⟨rfl, floatToInt 64 (fval32 (a.setWidth 32)), floatToInt_spec .., (exec_f32ToI64 a s).trans (respond_int64 ..)⟩

/-- Settles O21: as O19, of the Float64 on the whole bus. -/
theorem float64ToInt32TruncatesAndSaturates : Obligations.Float64ToInt32TruncatesAndSaturates := fun s a _ =>
  ⟨rfl, floatToInt 32 (fval64 a), floatToInt_spec .., (exec_f64ToI32 a s).trans (respond_int32 ..)⟩

/-- Settles O22: as O21, by `F2I_64`. -/
theorem float64ToInt64TruncatesAndSaturates : Obligations.Float64ToInt64TruncatesAndSaturates := fun s a _ =>
  ⟨rfl, floatToInt 64 (fval64 a), floatToInt_spec .., (exec_f64ToI64 a s).trans (respond_int64 ..)⟩

end Sys2Proof.Machine
end

/-! ## Unit 2: integer to float (42_int_to_float.md R62 to R66) -/

section
namespace Sys2Proof.Machine

/-- The integer 0 gives +0 in either format (R62, first branch). -/
theorem intToFloat_zero (f : FpFormat) : intToFloat f 0 = zeroFields false := if_pos rfl

section Pattern
variable (z : ℤ)

/-- `I2F32` as a pattern: 0 for 0, and otherwise a binary32 pattern whose value is the integer rounded once (R62). -/
theorem pack32_intToFloat_spec : (z = 0 → pack32 (intToFloat binary32 z) = 0) ∧
    (z ≠ 0 → binary32.IsRne z (fval32 (pack32 (intToFloat binary32 z)))) := by
  constructor
  · rintro rfl
    rw [intToFloat_zero]
    rfl
  · intro hz
    obtain ⟨hfits, hrne⟩ := intToFloat_spec binary32_good hz
    rwa [fval32, unpack32_pack32 hfits]

/-- `I2F64` as a pattern: as `pack32_intToFloat_spec`, in binary64 (R62). -/
theorem pack64_intToFloat_spec : (z = 0 → pack64 (intToFloat binary64 z) = 0) ∧
    (z ≠ 0 → binary64.IsRne z (fval64 (pack64 (intToFloat binary64 z)))) := by
  constructor
  · rintro rfl
    rw [intToFloat_zero]
    rfl
  · intro hz
    obtain ⟨hfits, hrne⟩ := intToFloat_spec binary64_good hz
    rwa [fval64, unpack64_pack64 hfits]

end Pattern

section Exec
variable (a : Bus) (s : State)

theorem exec_i32ToF32 : exec (.i32ToF32 a) s =
    .next (afterOk s ((pack32 (intToFloat binary32 (a.setWidth 32).toInt)).setWidth 64)) := by
  rw [← low32_eq]
  rfl

theorem exec_i32ToF64 : exec (.i32ToF64 a) s =
    .next (afterOk s (pack64 (intToFloat binary64 (a.setWidth 32).toInt))) := by
  rw [← low32_eq]
  rfl

theorem exec_i64ToF32 : exec (.i64ToF32 a) s =
    .next (afterOk s ((pack32 (intToFloat binary32 a.toInt)).setWidth 64)) := rfl

theorem exec_i64ToF64 : exec (.i64ToF64 a) s = .next (afterOk s (pack64 (intToFloat binary64 a.toInt))) := rfl

end Exec

/-- Settles O23: the answer is `I2F32` of the Int32 in the low half of the bus, rounded once. -/
theorem int32ToFloat32RoundsToNearest : Obligations.Int32ToFloat32RoundsToNearest := fun s a _ =>
  ⟨rfl, _, exec_i32ToF32 a s, pack32_intToFloat_spec _⟩

/-- Settles O24: as O23, by `I2F64`. -/
theorem int32ToFloat64RoundsToNearest : Obligations.Int32ToFloat64RoundsToNearest := fun s a _ =>
  ⟨rfl, _, exec_i32ToF64 a s, pack64_intToFloat_spec _⟩

/-- Settles O26: as O23, from the exact Int64 on the whole bus, with no rounding to binary64 between. -/
theorem int64ToFloat32RoundsOnce : Obligations.Int64ToFloat32RoundsOnce := fun s a _ =>
  ⟨rfl, _, exec_i64ToF32 a s, pack32_intToFloat_spec _⟩

/-- Settles O27: as O26, by `I2F64`. -/
theorem int64ToFloat64RoundsToNearest : Obligations.Int64ToFloat64RoundsToNearest := fun s a _ =>
  ⟨rfl, _, exec_i64ToF64 a s, pack64_intToFloat_spec _⟩

end Sys2Proof.Machine
end

/-! ## Unit 3: Float32 and Float64 (43_ieee754_convert.md R68 to R71) -/

section
namespace Sys2Proof.Machine

/-- The second bus, which F64_TO_F32 does not read, does not reach its NaN pattern (R18, U12). -/
theorem pNan32_narrow_congr (a b b' : Bus) : pNan32 0x31 a b = pNan32 0x31 a b' := rfl

/-- A binary32 number, a zero included, widens to fields of the same sign and the same value (R68). -/
theorem widen_number (v : BitVec 32) {q : ℚ} (hq : (fval32 v).toRat = some q) :
    ∃ y, widen (fval32 v) = some y ∧ binary64.Fits y ∧ (binary64.value y).toRat = some q ∧
      (binary64.value y).negative? = (fval32 v).negative? := by
  cases hv : fval32 v with
  | nan | inf n => rw [hv] at hq; cases hq
  | zero n =>
    rw [hv] at hq
    refine ⟨zeroFields n, rfl, ⟨Nat.zero_le _, Nat.two_pow_pos _⟩, ?_⟩
    rw [value_zeroFields binary64_good]
    exact ⟨hq, rfl⟩
  | finite n m e =>
    obtain ⟨hfits, hneg, hrat⟩ := widen_finite v hv
    rw [hv] at hq
    exact ⟨_, rfl, hfits, hrat.trans ((congrArg some (mul_assoc ..)).symm.trans hq), hneg⟩

/-- A binary64 number other than a zero narrows to fields of its rounding (R69, last branch). -/
theorem narrow_number (v : BitVec 64) {q : ℚ} (hq : (fval64 v).toRat = some q) (hq0 : q ≠ 0) :
    ∃ y, narrow (fval64 v) = some y ∧ binary32.Fits y ∧ binary32.IsRne q (binary32.value y) := by
  cases hv : fval64 v with
  | nan | inf n => rw [hv] at hq; cases hq
  | zero n =>
    rw [hv] at hq
    exact absurd (Option.some.inj hq).symm hq0
  | finite n m e =>
    obtain ⟨hm, -⟩ := value_finite binary64_good (fits_unpack64 v) hv
    obtain ⟨hfits, hrne⟩ := rne_spec binary32_good n hm e
    rw [hv] at hq
    obtain rfl : signFactor n * m * 2 ^ e = q := Option.some.inj hq
    rw [← mul_assoc] at hrne
    exact ⟨_, rfl, hfits, hrne⟩

/-- The pattern F32_TO_F64 answers (R68). -/
def widenedPattern (a : Bus) : BitVec 64 := (widen (fval32 (a.setWidth 32))).elim (pNan64 0x30 a 0) pack64

/-- The pattern F64_TO_F32 answers (R69). -/
def narrowedPattern (a : Bus) : BitVec 32 := (narrow (fval64 a)).elim (pNan32 0x31 a 0) pack32

section Exec
variable (a : Bus) (s : State)

theorem exec_f32ToF64 : exec (.f32ToF64 a) s = .next (afterOk s (widenedPattern a)) := by
  rw [widenedPattern, ← low32_eq]
  rfl

theorem exec_f64ToF32 : exec (.f64ToF32 a) s = .next (afterOk s ((narrowedPattern a).setWidth 64)) := rfl

theorem exec_f32ToF32 : exec (.f32ToF32 a) s = .next (afterOk s ((a.setWidth 32).setWidth 64)) := by
  rw [← low32_eq]
  rfl

theorem exec_f64ToF64 : exec (.f64ToF64 a) s = .next (afterOk s a) := rfl

end Exec

section Widened
variable {a : Bus}

theorem widenedPattern_nan (h : fval32 (a.setWidth 32) = .nan) (b : Bus) : widenedPattern a = pNan64 0x30 a b := by
  rw [widenedPattern, h]
  exact pNan64_widen_congr rfl 0 b

theorem widenedPattern_inf {n : Bool} (h : fval32 (a.setWidth 32) = .inf n) :
    widenedPattern a = if n then 0xFFF0000000000000 else 0x7FF0000000000000 := by
  rw [widenedPattern, h]
  cases n <;> rfl

theorem widenedPattern_zero {n : Bool} (h : fval32 (a.setWidth 32) = .zero n) :
    widenedPattern a = if n then 0x8000000000000000 else 0 := by
  rw [widenedPattern, h]
  cases n <;> rfl

theorem widenedPattern_number {q : ℚ} (hq : (fval32 (a.setWidth 32)).toRat = some q) :
    (fval64 (widenedPattern a)).toRat = some q ∧
      (fval64 (widenedPattern a)).negative? = (fval32 (a.setWidth 32)).negative? := by
  obtain ⟨y, hy, hfits, hvalue⟩ := widen_number _ hq
  have hpattern : widenedPattern a = pack64 y := by rw [widenedPattern, hy]; rfl
  rwa [hpattern, fval64, unpack64_pack64 hfits]

end Widened

section Narrowed
variable {a : Bus}

theorem narrowedPattern_nan (h : fval64 a = .nan) (b : Bus) : narrowedPattern a = pNan32 0x31 a b := by
  rw [narrowedPattern, h]
  exact pNan32_narrow_congr a 0 b

theorem narrowedPattern_inf {n : Bool} (h : fval64 a = .inf n) :
    narrowedPattern a = if n then 0xFF800000 else 0x7F800000 := by
  rw [narrowedPattern, h]
  cases n <;> rfl

theorem narrowedPattern_zero {n : Bool} (h : fval64 a = .zero n) :
    narrowedPattern a = if n then 0x80000000 else 0 := by
  rw [narrowedPattern, h]
  cases n <;> rfl

theorem narrowedPattern_number {q : ℚ} (hq : (fval64 a).toRat = some q) (hq0 : q ≠ 0) :
    binary32.IsRne q (fval32 (narrowedPattern a)) := by
  obtain ⟨y, hy, hfits, hrne⟩ := narrow_number _ hq hq0
  have hpattern : narrowedPattern a = pack32 y := by rw [narrowedPattern, hy]; rfl
  rwa [hpattern, fval32, unpack32_pack32 hfits]

end Narrowed

/-- Settles O29, by the kinds of binary32 value; the numbers, zeros among them, widen exactly. -/
theorem float32WidensExactly : Obligations.Float32WidensExactly := by
  intro s a b
  refine ⟨rfl, widenedPattern a, exec_f32ToF64 a s, fun hnan => ?_, fun _ => widenedPattern_inf,
    fun _ => widenedPattern_zero, fun _ => widenedPattern_number⟩
  rw [widenedPattern_nan hnan b]
  exact ⟨rfl, fval64_pNan64 ..⟩

/-- Settles O30, by the kinds of binary64 value; a number other than a zero is rounded once. -/
theorem float64NarrowsToNearest : Obligations.Float64NarrowsToNearest := by
  intro s a b
  refine ⟨rfl, narrowedPattern a, exec_f64ToF32 a s, fun hnan => ?_, fun _ => narrowedPattern_inf,
    fun _ => narrowedPattern_zero, fun _ => narrowedPattern_number⟩
  rw [narrowedPattern_nan hnan b]
  exact ⟨rfl, fval32_pNan32 ..⟩

/-- Settles O32: the pattern read from the bus is placed on the result bus as it is. -/
theorem floatIdentitiesKeepThePattern : Obligations.FloatIdentitiesKeepThePattern := fun s a _ =>
  ⟨rfl, rfl, exec_f32ToF32 a s, exec_f64ToF64 a s⟩

end Sys2Proof.Machine
end

/-! ## Unit 4: the shifts (44_shift.md R74 to R80) -/

section
namespace Sys2Proof.Machine

/-- The unsigned value of a two's-complement bus keeps the integer's residue modulo every divisor of `2^w`. -/
theorem toNat_ofInt_mod {w d : ℕ} (hd : d ∣ 2 ^ w) (n : ℤ) : (((BitVec.ofInt w n).toNat % d : ℕ) : ℤ) = n % d := by
  have hbus : ((BitVec.ofInt w n).toNat : ℤ) = n % (2 ^ w : ℕ) := by
    rw [BitVec.toNat_ofInt, Int.toNat_of_nonneg (Int.emod_nonneg n (by simp))]
  calc (((BitVec.ofInt w n).toNat % d : ℕ) : ℤ) = n % (2 ^ w : ℕ) % d := by rw [Int.natCast_emod, hbus]
    _ = n % d := Int.emod_emod_of_dvd n (Int.natCast_dvd_natCast.mpr hd)

/-- Settles O34: either width divides `2^64`, so masking the bus takes the residue of the integer written on it. -/
theorem shiftAmountIsResidue : Obligations.ShiftAmountIsResidue := by
  constructor
  · intro b
    rw [shiftAmount32_eq, shiftAmount64_eq, BitVec.toNat_setWidth, BitVec.toNat_setWidth]
    exact ⟨rfl, rfl⟩
  · intro n
    rw [shiftAmount32_eq, shiftAmount64_eq]
    exact ⟨toNat_ofInt_mod (by decide) n, toNat_ofInt_mod (by decide) n⟩

section Exec
variable (a b : Bus) (s : State)

theorem exec_shl32 : exec (.shl32 a b) s =
    .next (afterOk s (((a.setWidth 32) <<< (b.toNat % 32)).signExtend 64)) := by
  change execShl32 a b s = _
  rw [execShl32, respond_int32, ofInt_mul_pow, low32_eq, shiftAmount32_eq]

theorem exec_shrs32 : exec (.shrs32 a b) s =
    .next (afterOk s (((a.setWidth 32).sshiftRight (b.toNat % 32)).signExtend 64)) := by
  change execShrs32 a b s = _
  rw [execShrs32, respond_int32, int32Operand, ofInt_toInt_div_pow, low32_eq, shiftAmount32_eq]

theorem exec_shru32 : exec (.shru32 a b) s =
    .next (afterOk s (((a.setWidth 32) >>> (b.toNat % 32)).signExtend 64)) := by
  change execShru32 a b s = _
  rw [execShru32, respond_int32, ofInt_div_pow, low32_eq, shiftAmount32_eq]

theorem exec_shl64 : exec (.shl64 a b) s = .next (afterOk s (a <<< (b.toNat % 64))) := by
  change execShl64 a b s = _
  rw [execShl64, respond_int64, ofInt_mul_pow, shiftAmount64_eq]

theorem exec_shrs64 : exec (.shrs64 a b) s = .next (afterOk s (a.sshiftRight (b.toNat % 64))) := by
  change execShrs64 a b s = _
  rw [execShrs64, respond_int64, int64Operand, ofInt_toInt_div_pow, shiftAmount64_eq]

theorem exec_shru64 : exec (.shru64 a b) s = .next (afterOk s (a >>> (b.toNat % 64))) := by
  change execShru64 a b s = _
  rw [execShru64, respond_int64, ofInt_div_pow, shiftAmount64_eq]

end Exec

/-- Settles O35: the product and the two floors, reduced to 32 bits, are the three shifts of the low half. -/
theorem shifts32 : Obligations.Shifts32 := fun s a b =>
  ⟨rfl, rfl, rfl, exec_shl32 a b s, exec_shrs32 a b s, exec_shru32 a b s⟩

/-- Settles O36: as O35, of the whole bus. -/
theorem shifts64 : Obligations.Shifts64 := fun s a b =>
  ⟨rfl, rfl, rfl, exec_shl64 a b s, exec_shrs64 a b s, exec_shru64 a b s⟩

end Sys2Proof.Machine
end

/-! ## Unit 5: remainder (45_remainder.md R82 to R87) -/

section
namespace Sys2Proof.Machine

section IntRemainder
variable (place : Int → Result) (x : Int) {y : Int} (s : State)

/-- `IREM_N` by zero raises DivideByZero and ends there (R82, R105). -/
theorem intRemainder_of_eq_zero (hy : y = 0) :
    intRemainder place x y s = .next { s with responses := s.responses ++ [.divideByZero] } := if_pos hy

/-- `IREM_N` by anything else answers the remainder of the truncated quotient (R82). -/
theorem intRemainder_of_ne_zero (hy : y ≠ 0) : intRemainder place x y s = respond (place (x.tmod y)) s := by
  rw [intRemainder, if_neg hy, truncRem_eq_tmod]

end IntRemainder

section ExecInteger
variable (a : Bus) {b : Bus} (s : State)

theorem exec_rem32_of_ne_zero (hb : b.setWidth 32 ≠ 0#32) : exec (.rem32 a b) s = .next (afterOk s
    ((BitVec.ofInt 32 ((a.setWidth 32).toInt.tmod (b.setWidth 32).toInt)).signExtend 64)) := by
  have divisor : int32Operand b ≠ 0 := mt (int32Operand_eq_zero b).mp hb
  change execRem32 a b s = _
  rw [execRem32, intRemainder_of_ne_zero _ _ _ divisor, respond_int32, int32Operand, int32Operand, low32_eq, low32_eq]

theorem exec_rem32_of_eq_zero (hb : b.setWidth 32 = 0#32) :
    exec (.rem32 a b) s = .next { s with responses := s.responses ++ [.divideByZero] } :=
  intRemainder_of_eq_zero _ _ s ((int32Operand_eq_zero b).mpr hb)

theorem exec_rem64_of_ne_zero (hb : b ≠ 0) :
    exec (.rem64 a b) s = .next (afterOk s (BitVec.ofInt 64 (a.toInt.tmod b.toInt))) := by
  have divisor : int64Operand b ≠ 0 := mt (int64Operand_eq_zero b).mp hb
  change execRem64 a b s = _
  rw [execRem64, intRemainder_of_ne_zero _ _ _ divisor, respond_int64, int64Operand, int64Operand]

theorem exec_rem64_of_eq_zero (hb : b = 0) :
    exec (.rem64 a b) s = .next { s with responses := s.responses ++ [.divideByZero] } :=
  intRemainder_of_eq_zero _ _ s ((int64Operand_eq_zero b).mpr hb)

end ExecInteger

/-- `FMOD` as a pattern, in either format: where `floatRemainder` gives fields, their pattern is that of the remainder,
and `c`, a pattern of a NaN, stands for the rest (R85). Fields given are never a NaN's, so a NaN result is `c`. -/
theorem floatRemainder_pattern {α : Type} {f : FpFormat} (hf : f.Good) {pack : Fields → α} {unpack : α → Fields}
    (unpack_pack : ∀ {r}, f.Fits r → unpack (pack r) = r) {x y : Fields} (hx : f.Fits x) (hy : f.Fits y) {c : α}
    (hc : f.value (unpack c) = .nan) :
    IsFloatRemainder (f.value x) (f.value y) (f.value (unpack ((floatRemainder f x y).elim c pack))) ∧
      (f.value (unpack ((floatRemainder f x y).elim c pack)) = .nan → (floatRemainder f x y).elim c pack = c) := by
  have spec := floatRemainder_spec hf hx hy
  cases h : floatRemainder f x y with
  | none =>
    rw [h] at spec
    rw [Option.elim_none, hc]
    exact ⟨spec, fun _ => rfl⟩
  | some r =>
    rw [h] at spec
    obtain ⟨hfits, hrem⟩ := spec
    rw [Option.elim_some, unpack_pack hfits]
    exact ⟨hrem, fun hnan => absurd hnan (floatRemainder_ne_nan hf hx hy h)⟩

section ExecFloat
variable (a b : Bus) (s : State)

/-- The pattern FREM32 answers (R86). -/
def remainderPattern32 : BitVec 32 :=
  (floatRemainder binary32 (unpack32 (a.setWidth 32)) (unpack32 (b.setWidth 32))).elim (pNan32 0x52 a b) pack32

/-- The pattern FREM64 answers (R87). -/
def remainderPattern64 : BitVec 64 :=
  (floatRemainder binary64 (unpack64 a) (unpack64 b)).elim (pNan64 0x53 a b) pack64

theorem exec_frem32 : exec (.frem32 a b) s = .next (afterOk s ((remainderPattern32 a b).setWidth 64)) := by
  rw [remainderPattern32, ← low32_eq a, ← low32_eq b]
  rfl

theorem exec_frem64 : exec (.frem64 a b) s = .next (afterOk s (remainderPattern64 a b)) := rfl

end ExecFloat

/-- Settles O38, by the two branches of `IREM_32`: the Int32 divisor is 0 exactly when the low half of its bus is. -/
theorem int32Remainder : Obligations.Int32Remainder := fun s a _ =>
  ⟨rfl, exec_rem32_of_ne_zero a s, exec_rem32_of_eq_zero a s⟩

/-- Settles O39: as O38, by `IREM_64` of the whole buses. -/
theorem int64Remainder : Obligations.Int64Remainder := fun s a _ =>
  ⟨rfl, exec_rem64_of_ne_zero a s, exec_rem64_of_eq_zero a s⟩

/-- Settles O41: the answer is the pattern of `FMOD` of the Float32 operands, in binary32. -/
theorem float32Remainder : Obligations.Float32Remainder := fun s a b =>
  ⟨rfl, remainderPattern32 a b, exec_frem32 a b s, floatRemainder_pattern binary32_good unpack32_pack32
    (fits_unpack32 _) (fits_unpack32 _) (fval32_pNan32 0x52 a b)⟩

/-- Settles O42: as O41, in binary64. -/
theorem float64Remainder : Obligations.Float64Remainder := fun s a b =>
  ⟨rfl, remainderPattern64 a b, exec_frem64 a b s, floatRemainder_pattern binary64_good unpack64_pack64
    (fits_unpack64 _) (fits_unpack64 _) (fval64_pNan64 0x53 a b)⟩

end Sys2Proof.Machine
end

/-! ## Unit 6: the string hash (46_string_hash.md R89 to R92) -/

section
namespace Sys2Proof.Machine

/-- The hash of a sequence as `HASH` holds it: the recurrence reduced to 32 bits. -/
def hashBits (units : List CodeUnit) : BitVec 32 := BitVec.ofNat 32 (hashSum units)

/-- The response that carries the hash of a sequence. -/
def hashAnswer (units : List CodeUnit) : Response := .ok ((hashBits units).signExtend 64)

/-- `s` once a part of HASHSTR has run: `HASH` holds the hash of `units`, `rest` is still to be issued, and `answers`
were received. The counters are those of `s`. -/
def State.hashed (s : State) (units : List CodeUnit) (rest : List PortInput) (answers : List Response) : State :=
  { s with hash := hashBits units, inputs := rest, responses := s.responses ++ answers }

/-- The HASH_STEPs of HASHSTR, one for each code unit, as they are issued. -/
def hashStepInputs (units : List CodeUnit) : List PortInput :=
  units.map fun u => .command (encode (.hashStep (u.setWidth 64)))

/-- What HASHSTR issues (R89). -/
theorem hashStr_inputs (units : List CodeUnit) : (Pseudo.hashStr units).expand.map (fun i => .command (encode i)) =
    .command (encode .hashClr) :: hashStepInputs units ++ [.command (encode .hashRead)] := by
  simp only [Pseudo.expand, hashStepInputs, List.map_append, List.map_cons, List.map_map, List.map_nil]
  rfl

/-- One more code unit is one step of the recurrence. -/
theorem hashBits_append_singleton (units : List CodeUnit) (u : CodeUnit) :
    hashBits (units ++ [u]) = hashBits units * 31 + u.setWidth 32 := by
  have recurrence : hashSum (units ++ [u]) = hashSum units * 31 + u.toNat := List.foldl_append
  rw [hashBits, hashBits, recurrence, BitVec.ofNat_add, BitVec.ofNat_mul, BitVec.ofNat_toNat]
  rfl

theorem setWidth_codeUnitBus (u : CodeUnit) : (u.setWidth 64).setWidth 16 = u := by
  rw [BitVec.setWidth_setWidth_of_le u (by decide), BitVec.setWidth_eq]

section Hashed
variable (s : State) {units : List CodeUnit} {rest : List PortInput}

theorem State.hashed_self (hhash : s.hash = hashBits units) (hin : s.inputs = rest) : s.hashed units rest [] = s := by
  rw [State.hashed, ← hhash, ← hin, List.append_nil]

theorem State.hashed_hashed (units' : List CodeUnit) (rest' : List PortInput) (answers answers' : List Response) :
    (s.hashed units rest answers).hashed units' rest' answers' = s.hashed units' rest' (answers ++ answers') := by
  simp only [State.hashed, List.append_assoc]

end Hashed

section Exec
variable (b : Bus) (s : State)

theorem exec_hashClr :
    exec .hashClr s = .next { s with hash := 0, responses := s.responses ++ [.ok 0] } := rfl

theorem exec_hashStep : exec (.hashStep b) s = .next
    { s with
      hash := s.hash * 31 + (b.setWidth 16).setWidth 32
      responses := s.responses ++ [.ok ((s.hash * 31 + (b.setWidth 16).setWidth 32).signExtend 64)] } := by
  change execHashStep b s = _
  rw [execHashStep, hashNext_eq, respond_eq, place_int32_toInt]
  rfl

theorem exec_hashRead : exec .hashRead s = .next (afterOk s (s.hash.signExtend 64)) := by
  change execHashRead s = _
  rw [execHashRead, respond_eq, place_int32_toInt]

end Exec

section Step
variable {s : State} {units : List CodeUnit} {rest : List PortInput}

/-- A command issued as its own request is the one that runs. -/
theorem step_encode {i : Instr} (h : s.inputs = .command (encode i) :: rest) :
    step s = exec i { s with inputs := rest } :=
  (step_command h).trans (runCommand_ok (decode_encode i) _)

theorem step_hashClr (hin : s.inputs = .command (encode .hashClr) :: rest) :
    step s = .next (s.hashed [] rest [.ok 0]) := step_encode hin

theorem step_hashStep {u : CodeUnit} (hhash : s.hash = hashBits units)
    (hin : s.inputs = .command (encode (.hashStep (u.setWidth 64))) :: rest) :
    step s = .next (s.hashed (units ++ [u]) rest [hashAnswer (units ++ [u])]) := by
  rw [step_encode hin, exec_hashStep, setWidth_codeUnitBus, hhash, ← hashBits_append_singleton]
  rfl

theorem step_hashRead (hhash : s.hash = hashBits units) (hin : s.inputs = .command (encode .hashRead) :: rest) :
    step s = .next (s.hashed units rest [hashAnswer units]) := by
  rw [step_encode hin, exec_hashRead, State.hashed, ← hhash, hashAnswer, ← hhash]
  rfl

end Step

/-- The HASH_STEPs of a sequence, from a state whose `HASH` is the hash of the units already `done`: each answers the
hash of the units up to its own. -/
theorem run_hashSteps (units done : List CodeUnit) (rest : List PortInput) (k : Nat) (s : State)
    (hhash : s.hash = hashBits done)
    (hin : s.inputs = hashStepInputs units ++ rest) :
    Sys2Proof.core.run (units.length + k) s = Sys2Proof.core.run k (s.hashed (done ++ units) rest
      ((List.range units.length).map fun n => hashAnswer (done ++ units.take (n + 1)))) := by
  induction units generalizing done s with
  | nil =>
    rw [List.append_nil, List.length_nil, Nat.zero_add]
    exact congrArg (Sys2Proof.core.run k) (s.hashed_self hhash hin).symm
  | cons u units ih =>
    rw [List.length_cons, Nat.add_right_comm, core_run_succ (step_hashStep hhash hin), ih (done ++ [u]) _ rfl rfl,
      State.hashed_hashed, List.range_succ_eq_map, List.map_cons, List.map_map]
    simp only [← List.append_cons]
    rfl

/-- HASHSTR as a whole: HASH_CLR leaves the hash of the empty sequence, each HASH_STEP makes it the hash of one more
code unit, and HASH_READ answers it (R89). -/
theorem run_hashStr {units : List CodeUnit} {s : State} {rest : List PortInput}
    (hin : s.inputs = (Pseudo.hashStr units).expand.map (fun i => .command (encode i)) ++ rest) :
    Sys2Proof.core.run (units.length + 2) s = .next (s.hashed units rest
      ([.ok 0] ++ (List.range units.length).map (fun k => hashAnswer (units.take (k + 1))) ++ [hashAnswer units])) := by
  rw [hashStr_inputs, List.append_assoc] at hin
  rw [core_run_succ (step_hashClr hin), run_hashSteps units [] _ 1 _ rfl rfl, core_run_succ (step_hashRead rfl rfl),
    State.hashed_hashed, State.hashed_hashed]
  rfl

/-- Settles O44: HASH_CLR places 0, and HASH_READ places the register and writes none. -/
theorem hashClearAndRead : Obligations.HashClearAndRead := fun s _ _ =>
  ⟨rfl, rfl, exec_hashClr s, exec_hashRead s⟩

/-- Settles O45: the step of the recurrence, reduced to 32 bits, is the wrapping one on the register. -/
theorem hashStepMultipliesBy31 : Obligations.HashStepMultipliesBy31 := fun s _ b =>
  ⟨rfl, exec_hashStep b s⟩

/-- Settles O46: the state `run_hashStr` gives is the one the statement describes. -/
theorem hashStringOfAnySequence : Obligations.HashStringOfAnySequence := fun _ _ _ hin =>
  ⟨_, run_hashStr hin, (List.append_assoc ..).symm, rfl, rfl, rfl, rfl⟩

end Sys2Proof.Machine
end

/-! ## Units 7 and 8: the counters (47_counters.md R95 to R98) -/

section
namespace Sys2Proof.Machine

section Exec
variable (b : Bus) (s : State)

theorem exec_c32New :
    exec .c32New s = .next { s with ctr32 := 0, responses := s.responses ++ [.ok 0] } := rfl

theorem exec_c64New :
    exec .c64New s = .next { s with ctr64 := 0, responses := s.responses ++ [.ok 0] } := rfl

theorem exec_c32GetAdd : exec (.c32GetAdd b) s = .next
    { s with
      ctr32 := s.ctr32 + b.setWidth 32
      responses := s.responses ++ [.ok (s.ctr32.signExtend 64)] } := by
  change execC32GetAdd b s = _
  rw [execC32GetAdd, counter32_add, respond_eq, place_int32_toInt]
  rfl

theorem exec_c64GetAdd : exec (.c64GetAdd b) s = .next
    { s with ctr64 := s.ctr64 + b, responses := s.responses ++ [.ok s.ctr64] } := by
  change execC64GetAdd b s = _
  rw [execC64GetAdd, counter64_add, respond_eq, place_int64_toInt]
  rfl

end Exec

/-- Settles O48: the unsigned sum reduced to 32 bits is the wrapping one on the register, and the old value of the
register, as an Int32 result, is its sign extension. -/
theorem counter32GetAndAdd : Obligations.Counter32GetAndAdd := fun s _ b =>
  ⟨rfl, exec_c32GetAdd b s⟩

/-- Settles O49: as O48 at 64 bits, where the old value is the result bus as it is. -/
theorem counter64GetAndAdd : Obligations.Counter64GetAndAdd := fun s _ b =>
  ⟨rfl, exec_c64GetAdd b s⟩

/-- Settles O47: C32_NEW and C64_NEW each write 0 to their counter and answer 0, whatever the buses hold. -/
theorem counterNewSetsZero : Obligations.CounterNewSetsZero := fun s _ _ =>
  ⟨rfl, rfl, exec_c32New s, exec_c64New s⟩

end Sys2Proof.Machine
end

/-! ## The encoding (30_encoding.md R41 to R47) -/

section
namespace Sys2Proof.Machine

/-- Settles O1: the three fields come back from the word, and a command from its own request. -/
theorem wordDecodesToEncodedCommand : Obligations.WordDecodesToEncodedCommand := by
  intro i
  rw [decodeWord, encodeWord, Request.ofWord_toWord, decode_encode]

/-- The encoder keeps bus `a` of the request a command came from, unless the command does not read it. -/
theorem encode_a_or_unread (i : Instr) (r : Request) : (encode (i.withBuses r)).a = r.a ∨
    ∀ a, i.withBuses { r with a := a } = i.withBuses r := by
  cases i with
  | hashClr | hashStep | hashRead | c32New | c32GetAdd | c64New | c64GetAdd => exact .inr fun _ => rfl
  | _ => exact .inl rfl

/-- The encoder keeps bus `b` of the request a command came from, unless the command does not read it. -/
theorem encode_b_or_unread (i : Instr) (r : Request) : (encode (i.withBuses r)).b = r.b ∨
    ∀ b, i.withBuses { r with b := b } = i.withBuses r := by
  cases i with
  | shl32 | shrs32 | shru32 | shl64 | shrs64 | shru64 | rem32 | rem64 | frem32 | frem64 | hashStep | c32GetAdd
    | c64GetAdd => exact .inl rfl
  | _ => exact .inr fun _ => rfl

/-- Settles O2: a request that decodes to `i` gives `i` its buses, and decodes to the same command on any other buses
that `i` does not read. -/
theorem decodedRequestReencodes : Obligations.DecodedRequestReencodes := by
  intro r i hdecode
  have hop : r.op = i.opcode := opcode_of_decode hdecode
  have hbuses : i.withBuses r = i := withBuses_of_decode hdecode
  have decodes {r' : Request} (h : r'.op = r.op) (hsame : i.withBuses r' = i.withBuses r) : decode r' = .ok i :=
    (decode_of_opcode (h.trans hop)).trans (congrArg Except.ok (hsame.trans hbuses))
  refine ⟨(encode_op i).trans hop.symm, ?_, ?_⟩
  · have ha := encode_a_or_unread i r
    rw [hbuses] at ha
    exact ha.imp_right fun unread a => decodes rfl ((unread a).trans hbuses.symm)
  · have hb := encode_b_or_unread i r
    rw [hbuses] at hb
    exact hb.imp_right fun unread b => decodes rfl ((unread b).trans hbuses.symm)

/-- Settles O3: the twelve ranges are the opcodes whose fields are not allowed, and those the decoder refuses. -/
theorem reservedOpcodesRefused : Obligations.ReservedOpcodesRefused := fun op a b =>
  decode_error_iff_isReserved ⟨op, a, b⟩

/-- Settles O4: the decoder's list and the field rules agree on every opcode, and neither looks at the buses. -/
theorem decodedIffFieldsAllowed : Obligations.DecodedIffFieldsAllowed := by
  intro r
  rw [← decode_isOk]
  cases decode r with
  | error e => exact ⟨nofun, nofun⟩
  | ok i => exact ⟨fun _ => rfl, fun _ => ⟨i, rfl⟩⟩

/-- Settles O5: nine rows of the table, read off. -/
theorem sampleWordsDecode : Obligations.SampleWordsDecode :=
  ⟨rfl, rfl, rfl, rfl, rfl, rfl, rfl, rfl, rfl⟩

/-- Settles O59, by the sixteen conversions: a command of units 0 to 3 has one operand type and one result type, and no
other has both. -/
theorem typedConversionIsTheOneCommand : Obligations.TypedConversionIsTheOneCommand := by
  intro src dst x
  refine ⟨rfl, ?_, ?_, ?_, ?_⟩
  · cases src <;> cases dst <;> rfl
  · cases src <;> cases dst <;> rfl
  · cases src <;> cases dst <;> rfl
  · intro i hunit hsrc hdst
    subst hdst
    cases i with
    | c32GetAdd => exact absurd hunit (by decide : ¬ (0x71 : Opcode) ≤ 0x3F)
    | c64GetAdd => exact absurd hunit (by decide : ¬ (0x81 : Opcode) ≤ 0x3F)
    | _ => cases hsrc <;> rfl

end Sys2Proof.Machine
end

/-! ## The step (10_state.md R13; 70_reset_and_hazards.md R115, R121) -/

section
namespace Sys2Proof.Machine

/-- Settles O6: a reset sets the three registers and leaves the two lists of the port. -/
theorem resetClearsRegisters : Obligations.ResetClearsRegisters :=
  ⟨rfl, rfl, rfl, fun _ _ hin => step_reset hin⟩

/-- Settles O7: the step takes the request, and the run of a request that decodes is its command. -/
theorem stepRunsDecodedCommand : Obligations.StepRunsDecodedCommand := fun _ _ _ _ hin hdecode =>
  (step_command hin).trans (runCommand_ok hdecode _)

/-- Settles O9. -/
theorem idleKeepsState : Obligations.IdleKeepsState := fun _ => step_idle

/-- Settles O10, by what is next on the port: nothing, a reset, or a command, which gets its one response. -/
theorem everyStepCompletes : Obligations.EveryStepCompletes := by
  constructor
  · intro s
    match hin : s.inputs with
    | [] => exact ⟨_, step_idle hin⟩
    | .reset :: rest => exact ⟨_, step_reset hin⟩
    | .command r :: rest =>
      obtain ⟨t, -, hstep, -⟩ := step_command_effect hin
      exact ⟨t, hstep⟩
  · intro s r rest hin
    obtain ⟨t, p, hstep, -, -, hresp⟩ := step_command_effect hin
    exact ⟨t, p, hstep, hresp⟩

/-! ### The ledger -/

section Ledger
variable {r : Request} {s t : State}

/-- The run of a request gives `CTR32` the value the ledger's rules give it (R22, R95, R96). -/
theorem runCommand_ctr32 (h : runCommand r s = .next t) : t.ctr32 = ctr32After s.ctr32 (.command r) := by
  obtain ⟨op, a, b⟩ := r
  simp only [ctr32After]
  split_ifs with hnew hadd
  · subst hnew
    cases h
    rfl
  · subst hadd
    cases (exec_c32GetAdd b s).symm.trans h
    rfl
  · exact ctr32_writtenOnlyBy.runCommand_eq h (mt List.mem_pair.1 (not_or.2 ⟨hnew, hadd⟩))

/-- As `runCommand_ctr32`, for `CTR64` (R23, R97, R98). -/
theorem runCommand_ctr64 (h : runCommand r s = .next t) : t.ctr64 = ctr64After s.ctr64 (.command r) := by
  obtain ⟨op, a, b⟩ := r
  simp only [ctr64After]
  split_ifs with hnew hadd
  · subst hnew
    cases h
    rfl
  · subst hadd
    cases (exec_c64GetAdd b s).symm.trans h
    rfl
  · exact ctr64_writtenOnlyBy.runCommand_eq h (mt List.mem_pair.1 (not_or.2 ⟨hnew, hadd⟩))

/-- As `runCommand_ctr32`, for `HASH` (R24, R90, R91). -/
theorem runCommand_hash (h : runCommand r s = .next t) : t.hash = hashAfter s.hash (.command r) := by
  obtain ⟨op, a, b⟩ := r
  simp only [hashAfter]
  split_ifs with hclr hstep
  · subst hclr
    cases h
    rfl
  · subst hstep
    cases (exec_hashStep b s).symm.trans h
    exact congrArg (· + _) (BitVec.mul_comm ..)
  · exact hash_writtenOnlyBy.runCommand_eq h (mt List.mem_pair.1 (not_or.2 ⟨hclr, hstep⟩))

/-- What the ledger counts for the input at the head of the port is what taking it does, so the ledger of the state after
it is the same. -/
theorem ledger_eq_of_taken {input : PortInput} {rest : List PortInput} (hin : s.inputs = input :: rest)
    (hrest : t.inputs = rest) (h32 : t.ctr32 = ctr32After s.ctr32 input) (h64 : t.ctr64 = ctr64After s.ctr64 input)
    (hhash : t.hash = hashAfter s.hash input)
    (hresp : t.responses.length = s.responses.length + responsesOwed input) : t.ledger = s.ledger := by
  simp only [State.ledger, hin, hrest, List.foldl_cons, List.map_cons, List.sum_cons, h32, h64, hhash, hresp,
    Nat.add_assoc]

/-- A step takes at most the input at the head of the port, and does what the ledger counts for it. -/
theorem step_ledger (h : step s = .next t) : t.ledger = s.ledger := by
  obtain ⟨-, rfl⟩ | ⟨rest, hin, rfl⟩ | ⟨r, rest, hin, hrun⟩ := step_cases h
  · rfl
  · exact ledger_eq_of_taken hin rfl rfl rfl rfl rfl
  · obtain ⟨t', p, hrun', hrest, hresp⟩ := runCommand_effect r { s with inputs := rest }
    cases hrun.symm.trans hrun'
    have h32 := runCommand_ctr32 hrun
    have h64 := runCommand_ctr64 hrun
    have hhash := runCommand_hash hrun
    exact ledger_eq_of_taken hin hrest h32 h64 hhash (by rw [hresp, List.length_append]; rfl)

end Ledger

/-- Settles O12: one step keeps the ledger, whatever the ledger is. -/
theorem stepKeepsLedger : Obligations.StepKeepsLedger := fun _ _ _ hl h => (step_ledger h).trans hl

/-- Settles O13: nothing is on the port after reset. -/
theorem resetLedgerIsZero : Obligations.ResetLedgerIsZero := rfl

end Sys2Proof.Machine
end

/-! ## What every command answers (10_state.md R13, R14, R20, R40; 60_exceptions.md R102 to R105) -/

section
namespace Sys2Proof.Machine

/-- Settles O60, by the three responses there are. -/
theorem statusCodes : Obligations.StatusCodes := by
  refine ⟨fun _ => rfl, rfl, rfl, fun p => ?_⟩
  cases p with
  | ok r => exact ⟨nofun, fun _ => rfl, fun _ => rfl⟩
  | divideByZero | illegalCommand => exact ⟨nofun, nofun, nofun⟩

/-- `CTR32`, `CTR64` and `HASH` as one value. -/
abbrev Registers := BitVec 32 × BitVec 64 × BitVec 32

/-- `s` with the registers `g`, after the response `p`. -/
def State.answered (s : State) (g : Registers) (p : Response) : State :=
  { s with ctr32 := g.1, ctr64 := g.2.1, hash := g.2.2, responses := s.responses ++ [p] }

section Answered
variable (s : State) (g : Registers) (p : Response)
@[simp] theorem State.answered_registers : (s.answered g p).registers = g := rfl
@[simp] theorem State.answered_getLast? : (s.answered g p).responses.getLast? = some p := List.getLast?_concat
end Answered

/-- A command that divides by zero (R105). -/
def DividesByZero : Instr → Prop
  | .rem32 _ b => b.setWidth 32 = 0#32
  | .rem64 _ b => b = 0
  | _ => False

/-- What a command may answer, and then make of the registers `g`: a result of its type, or DivideByZero, which leaves
them as they were (R103, R105). -/
inductive IsAnswerOf (i : Instr) (g g' : Registers) : Response → Prop where
  | ok (res : Result) (hdiv : ¬ DividesByZero i) (htype : res.numType = i.resultType) : IsAnswerOf i g g' (.ok res.place)
  | divideByZero (hdiv : DividesByZero i) (hkeep : g' = g) : IsAnswerOf i g g' .divideByZero

/-- Of two states with the same registers, a command makes the same registers, and it answers them alike: it looks at
nothing else of a state (R14, R40). -/
theorem exec_answered (i : Instr) {s s' : State} (h : s.registers = s'.registers) :
    ∃ g p, exec i s = .next (s.answered g p) ∧ exec i s' = .next (s'.answered g p) ∧ IsAnswerOf i s.registers g p := by
  obtain ⟨c, d, k, ins, ps⟩ := s
  obtain ⟨c', d', k', ins', ps'⟩ := s'
  cases h
  cases i with
  | rem32 a b =>
    by_cases hb : b.setWidth 32 = 0#32
    · exact ⟨(c, d, k), _, exec_rem32_of_eq_zero a _ hb, exec_rem32_of_eq_zero a _ hb, .divideByZero hb rfl⟩
    · exact ⟨(c, d, k), _, exec_rem32_of_ne_zero a _ hb, exec_rem32_of_ne_zero a _ hb, .ok (.int32 _) hb rfl⟩
  | rem64 a b =>
    by_cases hb : b = 0
    · exact ⟨(c, d, k), _, exec_rem64_of_eq_zero a _ hb, exec_rem64_of_eq_zero a _ hb, .divideByZero hb rfl⟩
    · exact ⟨(c, d, k), _, exec_rem64_of_ne_zero a _ hb, exec_rem64_of_ne_zero a _ hb, .ok (.int64 _) hb rfl⟩
  | _ => exact ⟨(_, _, _), _, rfl, rfl, .ok _ id rfl⟩

/-- Settles O53: a result is placed by its own type, which is the command's. -/
theorem resultsArePlacedByType : Obligations.ResultsArePlacedByType := by
  intro i s t r h hr
  obtain ⟨g, p, he, -, hanswer⟩ := exec_answered i (rfl : s.registers = s.registers)
  cases he.symm.trans h
  cases (s.answered_getLast? g p).symm.trans hr
  cases hanswer with
  | ok res _ htype => exact htype ▸ place_isPlaced res

/-- A command that leaves the registers as they were does the same again, with the same response. -/
theorem exec_repeat {i : Instr} {s t u : State} (h : exec i s = .next t) (h' : exec i t = .next u)
    (hkeep : t.registers = s.registers) :
    u.registers = t.registers ∧ u.responses.getLast? = t.responses.getLast? := by
  obtain ⟨g, p, hs, ht, -⟩ := exec_answered i hkeep.symm
  cases hs.symm.trans h
  cases ht.symm.trans h'
  simp

/-- Settles O57: a command that writes no register repeats itself, a GETADD of delta 0 among them; HASH_CLR and the two
NEWs answer 0 and leave 0 both times. -/
theorem commandsButThreeAreIdempotent : Obligations.CommandsButThreeAreIdempotent := by
  intro i s t u h h' hcase
  have keeps (hkeep : registersAfter i s = s.registers) := exec_repeat h h' ((exec_inv h).2.2.trans hkeep)
  obtain hop | rfl | ⟨b, rfl, hb⟩ := hcase
  · cases i with
    | hashClr | c32New | c64New =>
      cases h
      cases h'
      simp [State.registers]
    | hashStep b | c32GetAdd b | c64GetAdd b => exact absurd (by simp [Instr.opcode]) hop
    | _ => exact keeps rfl
  · refine keeps ?_
    rw [registersAfter_c64GetAdd, counter64_add, add_zero]
    rfl
  · refine keeps ?_
    rw [registersAfter_c32GetAdd, counter32_add, hb, BitVec.add_zero]
    rfl

/-! ### Requests -/

/-- What a request may be answered: what its command answers, or IllegalCommand, which leaves the registers (R103, R104). -/
inductive IsAnswerTo (r : Request) (g g' : Registers) : Response → Prop where
  | command {i : Instr} {p : Response} (hdecode : decode r = .ok i) (h : IsAnswerOf i g g' p) : IsAnswerTo r g g' p
  | illegalCommand (hreserved : IsReserved r.op) (hkeep : g' = g) : IsAnswerTo r g g' .illegalCommand

/-- `exec_answered` for a request. -/
theorem runCommand_answered (r : Request) {s s' : State} (h : s.registers = s'.registers) :
    ∃ g p, runCommand r s = .next (s.answered g p) ∧ runCommand r s' = .next (s'.answered g p) ∧
      IsAnswerTo r s.registers g p := by
  cases hdecode : decode r with
  | error e =>
    have hreserved := (decode_error_iff_isReserved r).mp ⟨e, hdecode⟩
    refine ⟨s.registers, .illegalCommand, runCommand_error hdecode s, ?_, .illegalCommand hreserved rfl⟩
    rw [h]
    exact runCommand_error hdecode s'
  | ok i =>
    rw [runCommand_ok hdecode, runCommand_ok hdecode]
    obtain ⟨g, p, hs, hs', hanswer⟩ := exec_answered i h
    exact ⟨g, p, hs, hs', .command hdecode hanswer⟩

/-- The response and the registers of one request, read from its run. -/
theorem runCommand_inv {r : Request} {s t : State} (h : runCommand r s = .next t) :
    ∃ g p, t = s.answered g p ∧ IsAnswerTo r s.registers g p := by
  obtain ⟨g, p, he, -, hanswer⟩ := runCommand_answered r (rfl : s.registers = s.registers)
  exact ⟨g, p, Host.Outcome.next.inj (h.symm.trans he), hanswer⟩

section Decoded
variable {r : Request} {i : Instr} (hdecode : decode r = .ok i)
include hdecode

theorem not_isReserved_of_decode : ¬ IsReserved r.op := by
  intro hreserved
  obtain ⟨e, herror⟩ := (decode_error_iff_isReserved r).mpr hreserved
  cases hdecode.symm.trans herror

/-- The commands that divide by zero, as requests (R105). -/
theorem dividesByZero_iff : DividesByZero i ↔
    (r.op = 0x50 ∧ r.b.setWidth 32 = 0#32) ∨ (r.op = 0x51 ∧ r.b = 0) := by
  rw [← withBuses_of_decode hdecode, opcode_of_decode hdecode]
  cases i <;> simp [Instr.withBuses, Instr.opcode, DividesByZero]

end Decoded

/-- Settles O58: the two runs leave the same registers and answer with the same response. -/
theorem onlyRegistersDecideTheResponse : Obligations.OnlyRegistersDecideTheResponse := by
  intro r s s' t t' hregs h h'
  obtain ⟨g, p, hs, hs', -⟩ := runCommand_answered r hregs
  cases hs.symm.trans h
  cases hs'.symm.trans h'
  exact ⟨rfl, p, rfl, rfl⟩

/-- Settles O54, by what a request may be answered. -/
theorem divideByZeroExactlyForZeroDivisors : Obligations.DivideByZeroExactlyForZeroDivisors := by
  intro s t r h
  obtain ⟨g, p, rfl, hanswer⟩ := runCommand_inv h
  rw [s.answered_getLast?]
  cases hanswer with
  | illegalCommand hreserved hkeep =>
    refine ⟨⟨nofun, fun hzero => ?_⟩, nofun, fun hdefined => absurd hreserved hdefined⟩
    obtain ⟨hop, -⟩ | ⟨hop, -⟩ := hzero
    · exact absurd hreserved (not_isReserved_of_decode (decode_of_opcode (i := .rem32 0 0) hop))
    · exact absurd hreserved (not_isReserved_of_decode (decode_of_opcode (i := .rem64 0 0) hop))
  | command hdecode hanswer =>
    rw [← dividesByZero_iff hdecode]
    cases hanswer with
    | ok res hdiv _ => exact ⟨⟨nofun, fun hzero => absurd hzero hdiv⟩, nofun, fun _ _ => ⟨_, rfl⟩⟩
    | divideByZero hdiv hkeep =>
      refine ⟨⟨fun _ => hdiv, fun _ => rfl⟩, fun _ => hkeep ▸ rfl, fun _ hother => ?_⟩
      obtain ⟨hop, -⟩ | ⟨hop, -⟩ := (dividesByZero_iff hdecode).mp hdiv <;> simp [hop] at hother

/-- Settles O55: only a request that decodes to no command is answered IllegalCommand. -/
theorem illegalCommandExactlyForReserved : Obligations.IllegalCommandExactlyForReserved := by
  intro s t r h
  obtain ⟨g, p, rfl, hanswer⟩ := runCommand_inv h
  rw [s.answered_getLast?]
  cases hanswer with
  | illegalCommand hreserved _ => exact ⟨fun _ => hreserved, fun _ => rfl⟩
  | command hdecode hanswer =>
    refine ⟨fun hp => ?_, fun hreserved => absurd hreserved (not_isReserved_of_decode hdecode)⟩
    cases Option.some.inj hp
    cases hanswer

/-- An error carries no result, and leaves the registers (R103). -/
theorem IsAnswerTo.keeps_of_error {r : Request} {g g' : Registers} {p : Response} (h : IsAnswerTo r g g' p)
    (hp : p.status ≠ 0) : g' = g ∧ p.result? = none := by
  cases h with
  | illegalCommand _ hkeep => exact ⟨hkeep, rfl⟩
  | command _ h =>
    cases h with
    | ok res => exact absurd rfl hp
    | divideByZero _ hkeep => exact ⟨hkeep, rfl⟩

/-- Settles O56: an error leaves the registers, and on the same registers the request is answered the same. -/
theorem errorsWriteNothingAndRepeat : Obligations.ErrorsWriteNothingAndRepeat := by
  intro s t r p h hlast hp
  obtain ⟨g, p', rfl, hanswer⟩ := runCommand_inv h
  cases (s.answered_getLast? g p').symm.trans hlast
  obtain ⟨rfl, hresult⟩ := hanswer.keeps_of_error hp
  obtain ⟨g', q, hs, ht, -⟩ := runCommand_answered r (s.answered_registers s.registers p).symm
  have hsame : s.answered g' q = s.answered s.registers p := Host.Outcome.next.inj (hs.symm.trans h)
  have hq : q = p := by simpa using congrArg (fun u : State => u.responses.getLast?) hsame
  have hg : g' = s.registers := by simpa using congrArg State.registers hsame
  exact ⟨rfl, rfl, rfl, hresult, _, ht, hq ▸ State.answered_getLast? .., hg⟩

end Sys2Proof.Machine
end

/-! ## Bits that are not read (10_state.md R18, R19; 93_implementation_defined.md U12) -/

section
namespace Sys2Proof.Machine

/-- Requests of one opcode run alike when the commands of that opcode do, on the buses of the one and of the other. -/
theorem runCommand_congr {op : Opcode} {a a' b b' : Bus} (s : State)
    (h : ∀ i : Instr, i.opcode = op → exec (i.withBuses ⟨op, a, b⟩) s = exec (i.withBuses ⟨op, a', b'⟩) s) :
    runCommand ⟨op, a, b⟩ s = runCommand ⟨op, a', b'⟩ s := by
  cases hdecode : decode ⟨op, a, b⟩ with
  | error e =>
    have hreserved : IsReserved op := (decode_error_iff_isReserved _).mp ⟨e, hdecode⟩
    obtain ⟨e', he'⟩ := (decode_error_iff_isReserved ⟨op, a', b'⟩).mpr hreserved
    rw [runCommand_error hdecode, runCommand_error he']
  | ok i =>
    have hi : op = i.opcode := opcode_of_decode hdecode
    rw [runCommand_ok (decode_of_opcode hi), runCommand_ok (decode_of_opcode hi)]
    exact h i hi.symm

section Congr
variable {a a' b b' : Bus}

theorem widenedPattern_congr (ha : a.setWidth 32 = a'.setWidth 32) : widenedPattern a = widenedPattern a' := by
  have hlow : low32 a = low32 a' := by rw [low32_eq, low32_eq, ha]
  rw [widenedPattern, widenedPattern, ha, pNan64_widen_congr hlow]

theorem remainderPattern32_congr (ha : a.setWidth 32 = a'.setWidth 32) (hb : b.setWidth 32 = b'.setWidth 32) :
    remainderPattern32 a b = remainderPattern32 a' b' := by
  have hlow : low32 a = low32 a' ∧ low32 b = low32 b' := by simp only [low32_eq, ha, hb, and_self]
  rw [remainderPattern32, remainderPattern32, ha, hb, pNan32_frem_congr hlow.1 hlow.2]

/-- Equal low bits are equal residues. -/
theorem toNat_mod_of_setWidth_eq {w k : ℕ} {x y : BitVec w} (h : x.setWidth k = y.setWidth k) :
    x.toNat % 2 ^ k = y.toNat % 2 ^ k := by
  simpa using congrArg BitVec.toNat h

/-- Bits that agree up to a width agree up to a smaller one. -/
theorem setWidth_eq_of_le {w k n : ℕ} {x y : BitVec w} (hn : n ≤ k) (h : x.setWidth k = y.setWidth k) :
    x.setWidth n = y.setWidth n := by
  rw [← BitVec.setWidth_setWidth_of_le x hn, h, BitVec.setWidth_setWidth_of_le y hn]

end Congr

/-- The operand columns of the opcode table, by the opcode: bus `b` is read from 0x40 on (R44). -/
theorem withBuses_ignores_b {i : Instr} (h : i.opcode ≤ 0x3F) (op : Opcode) (a b b' : Bus) :
    i.withBuses ⟨op, a, b⟩ = i.withBuses ⟨op, a, b'⟩ := by
  cases i with
  | shl32 | shrs32 | shru32 | shl64 | shrs64 | shru64 | rem32 | rem64 | frem32 | frem64 | hashStep | c32GetAdd
    | c64GetAdd => simp [Instr.opcode] at h
  | _ => rfl

/-- Bus `a` is read below 0x60 (R44). -/
theorem withBuses_ignores_a {i : Instr} (h : 0x60 ≤ i.opcode) (op : Opcode) (a a' b : Bus) :
    i.withBuses ⟨op, a, b⟩ = i.withBuses ⟨op, a', b⟩ := by
  cases i with
  | hashClr | hashStep | hashRead | c32New | c32GetAdd | c64New | c64GetAdd => rfl
  | _ => simp [Instr.opcode] at h

/-- Four commands read neither bus (R44). -/
theorem withBuses_ignores_both {i : Instr} (h : i.opcode ∈ ([0x60, 0x62, 0x70, 0x80] : List Opcode)) (r r' : Request) :
    i.withBuses r = i.withBuses r' := by
  cases i with
  | hashClr | hashRead | c32New | c64New => rfl
  | _ => simp [Instr.opcode] at h

section Exec
variable {i : Instr} {a a' b b' : Bus} (op : Opcode) (s : State)

/-- A 32-bit shift reads five bits of its amount (R74). -/
theorem exec_shift32_congr (hi : i.opcode ∈ ([0x40, 0x41, 0x42] : List Opcode))
    (ha : a.setWidth 32 = a'.setWidth 32) (hb : b.setWidth 5 = b'.setWidth 5) :
    exec (i.withBuses ⟨op, a, b⟩) s = exec (i.withBuses ⟨op, a', b'⟩) s := by
  have hamount : b.toNat % 32 = b'.toNat % 32 := toNat_mod_of_setWidth_eq hb
  cases i with
  | shl32 | shrs32 | shru32 => simp only [Instr.withBuses, exec_shl32, exec_shrs32, exec_shru32, ha, hamount]
  | _ => simp [Instr.opcode] at hi

/-- HASH_STEP reads sixteen bits (R91). -/
theorem exec_hashStep_congr (hb : b.setWidth 16 = b'.setWidth 16) : exec (.hashStep b) s = exec (.hashStep b') s := by
  rw [exec_hashStep, exec_hashStep, hb]

theorem exec_rem32_congr (ha : a.setWidth 32 = a'.setWidth 32) (hb : b.setWidth 32 = b'.setWidth 32) :
    exec (.rem32 a b) s = exec (.rem32 a' b') s := by
  by_cases hzero : b.setWidth 32 = 0#32
  · rw [exec_rem32_of_eq_zero a s hzero, exec_rem32_of_eq_zero a' s (hb ▸ hzero)]
  · rw [exec_rem32_of_ne_zero a s hzero, exec_rem32_of_ne_zero a' s (hb ▸ hzero), ha, hb]

/-- The commands with 32-bit operands read the low halves of their buses (R19). -/
theorem exec_low32_congr (hi : i.opcode ∈ ([0x00, 0x02, 0x10, 0x11, 0x20, 0x21, 0x30, 0x32, 0x40, 0x41, 0x42, 0x50, 0x52,
      0x61, 0x71] : List Opcode)) (ha : a.setWidth 32 = a'.setWidth 32) (hb : b.setWidth 32 = b'.setWidth 32) :
    exec (i.withBuses ⟨op, a, b⟩) s = exec (i.withBuses ⟨op, a', b'⟩) s := by
  cases i with
  | i32ToI64 | i32ToI32 | f32ToI32 | f32ToI64 | i32ToF32 | i32ToF64 | f32ToF32 =>
    simp only [Instr.withBuses, exec_i32ToI64, exec_i32ToI32, exec_f32ToI32, exec_f32ToI64, exec_i32ToF32, exec_i32ToF64,
      exec_f32ToF32, ha]
  | f32ToF64 => simp only [Instr.withBuses, exec_f32ToF64, widenedPattern_congr ha]
  | shl32 | shrs32 | shru32 =>
    exact exec_shift32_congr op s (by simp [Instr.opcode]) ha (setWidth_eq_of_le (by decide) hb)
  | rem32 => exact exec_rem32_congr s ha hb
  | frem32 => simp only [Instr.withBuses, exec_frem32, remainderPattern32_congr ha hb]
  | hashStep => exact exec_hashStep_congr s (setWidth_eq_of_le (by decide) hb)
  | c32GetAdd => simp only [Instr.withBuses, exec_c32GetAdd, hb]
  | _ => simp [Instr.opcode] at hi

end Exec

/-- Settles O52: a request runs the command of its opcode, and that command reads no more than the table says. -/
theorem unreadBitsAreIgnored : Obligations.UnreadBitsAreIgnored := by
  intro s a a' b b'
  refine ⟨fun op hop => ?_, fun op hop => ?_, fun op hop => ?_, fun ha hb op hop => ?_, fun hb op hop => ?_, fun hb => ?_⟩
  · exact runCommand_congr s fun i hi => congrArg (exec · s) (withBuses_ignores_b (hi ▸ hop) ..)
  · exact runCommand_congr s fun i hi => congrArg (exec · s) (withBuses_ignores_a (hi ▸ hop) ..)
  · exact runCommand_congr s fun i hi => congrArg (exec · s) (withBuses_ignores_both (hi ▸ hop) ..)
  · exact runCommand_congr s fun i hi => exec_low32_congr op s (hi ▸ hop) ha hb
  · exact runCommand_congr s fun i hi => exec_shift32_congr op s (hi ▸ hop) rfl hb
  · exact exec_hashStep_congr s hb

end Sys2Proof.Machine
end

/-! ## Inferences of the spec about the integer units (40_int_conversion.md R52, 44_shift.md R81, 45_remainder.md R82, R88) -/

section
namespace Sys2Proof.Machine

section Result
variable {i : Instr} {s t : State} {r v : Bus}

/-- The result a command answered, where `r` is its result. -/
theorem result_eq (he : exec i s = .next (afterOk s r)) (h : exec i s = .next t)
    (hv : t.responses.getLast? = some (.ok v)) : v = r := by
  cases he.symm.trans h
  rw [afterOk_responses, List.getLast?_concat] at hv
  exact (Response.ok.inj (Option.some.inj hv)).symm

theorem afterOk_result_eq (he : exec i s = .next (afterOk s r)) (h : exec i s = .next (afterOk s v)) : v = r :=
  result_eq he h List.getLast?_concat

end Result

/-- The low bits of a word, signed, are the balanced residue of the signed word. -/
theorem toInt_setWidth_eq_bmod {w k : ℕ} (h : k ≤ w) (x : BitVec w) :
    (x.setWidth k).toInt = x.toInt.bmod (2 ^ k) := by
  rw [BitVec.toInt_setWidth, BitVec.toInt_eq_toNat_bmod, Int.bmod_bmod_of_dvd (Nat.pow_dvd_pow 2 h)]

/-- Settles O16: the result is the balanced residue of the operand modulo 2^32, which is the operand in the range of
Int32 and nowhere else. -/
theorem narrowingChangesOnlyOutOfRange : Obligations.NarrowingChangesOnlyOutOfRange := by
  intro s a r h
  obtain rfl := afterOk_result_eq (exec_i64ToI32 a s) h
  rw [BitVec.toInt_signExtend_of_le (by decide), toInt_setWidth_eq_bmod (by decide), Int.bmod_eq_iff (by decide)]
  simp only [sub_self, dvd_zero, and_true]
  omega

/-! ### Shifts -/

/-- An unsigned right shift by 1 or more clears the sign bit. -/
theorem toInt_ushiftRight_nonneg {w n : ℕ} (x : BitVec w) (hn : n ≠ 0) : 0 ≤ (x >>> n).toInt := by
  rw [BitVec.toInt_ushiftRight, if_neg hn]
  exact Int.natCast_nonneg _

/-- A signed right shift keeps the sign bit. -/
theorem toInt_sshiftRight_neg_iff {w : ℕ} (n : ℕ) (x : BitVec w) : (x.sshiftRight n).toInt < 0 ↔ x.toInt < 0 := by
  have hmsb : (x.sshiftRight n).msb = x.msb := BitVec.msb_sshiftRight
  simpa only [BitVec.msb_eq_toInt, decide_eq_decide] using hmsb

/-- Settles O37: an amount of the full width is masked to 0; the sign bit is what the other laws are about. -/
theorem shiftLaws : Obligations.ShiftLaws := by
  intro s t a b r hr
  have toInt_result (x : BitVec 32) : (x.signExtend 64).toInt = x.toInt := BitVec.toInt_signExtend_of_le (by decide)
  refine ⟨?_, ?_, fun h hn => ?_, fun h hn => ?_, fun h => ?_, fun h => ?_⟩
  · rintro (h | h | h)
    · exact (result_eq (exec_shl64 a 64 s) h hr).trans (BitVec.shiftLeft_zero a)
    · exact (result_eq (exec_shrs64 a 64 s) h hr).trans BitVec.sshiftRight_zero
    · exact (result_eq (exec_shru64 a 64 s) h hr).trans (BitVec.ushiftRight_zero a)
  · rintro (h | h | h)
    · exact (result_eq (exec_shl32 a 32 s) h hr).trans (congrArg _ (BitVec.shiftLeft_zero _))
    · exact (result_eq (exec_shrs32 a 32 s) h hr).trans (congrArg _ BitVec.sshiftRight_zero)
    · exact (result_eq (exec_shru32 a 32 s) h hr).trans (congrArg _ (BitVec.ushiftRight_zero _))
  · rw [result_eq (exec_shru32 a b s) h hr, toInt_result]
    exact toInt_ushiftRight_nonneg _ hn
  · rw [result_eq (exec_shru64 a b s) h hr]
    exact toInt_ushiftRight_nonneg _ hn
  · rw [result_eq (exec_shrs32 a b s) h hr, toInt_result]
    exact toInt_sshiftRight_neg_iff _ _
  · rw [result_eq (exec_shrs64 a b s) h hr]
    exact toInt_sshiftRight_neg_iff _ _

/-! ### Integer remainder -/

/-- A remainder that is not 0 has the sign of the dividend. -/
theorem sign_truncRem {x y : ℤ} (h : truncRem x y ≠ 0) : (truncRem x y).sign = x.sign := by
  rw [truncRem_eq_tmod] at h ⊢
  rw [Int.sign_tmod, if_neg (mt Int.tmod_eq_zero_of_dvd h)]

theorem natAbs_truncRem_lt (x : ℤ) {y : ℤ} (hy : y ≠ 0) : (truncRem x y).natAbs < y.natAbs := by
  rw [truncRem_eq_tmod, Int.natAbs_tmod]
  exact Nat.mod_lt _ (Int.natAbs_pos.mpr hy)

theorem truncDiv_mul_add_truncRem (x y : ℤ) : truncDiv x y * y + truncRem x y = x := by
  rw [truncDiv_eq_tdiv, truncRem_eq_tmod, Int.tdiv_mul_add_tmod]

/-- The law of division survives wrapping at any width. -/
theorem ofInt_truncDiv_mul_add (w : ℕ) (x y : ℤ) :
    BitVec.ofInt w (truncDiv x y) * BitVec.ofInt w y + BitVec.ofInt w (truncRem x y) = BitVec.ofInt w x := by
  rw [← BitVec.ofInt_mul, ← BitVec.ofInt_add, truncDiv_mul_add_truncRem]

/-- Settles O40: the law over the integers, and reduced to each width. -/
theorem remainderLaw : Obligations.RemainderLaw := fun x y hy =>
  ⟨truncDiv_mul_add_truncRem x y, natAbs_truncRem_lt x hy, sign_truncRem, ofInt_truncDiv_mul_add 32 x y,
    ofInt_truncDiv_mul_add 64 x y⟩

end Sys2Proof.Machine
end

/-! ## What a pattern encodes (10_state.md R16) -/

section
namespace Sys2Proof.Machine

/-- The decoding of R16 in a format: NaN, infinity, zero or subnormal number (the fraction at the smallest spacing), and
normal number (its leading bit implied). -/
theorem value_clauses {f : FpFormat} (hs : f.special ≠ 0) (x : Fields) :
    (x.exponent = f.special → x.fraction ≠ 0 → f.value x = .nan) ∧
    (x.exponent = f.special → x.fraction = 0 → f.value x = .inf x.negative) ∧
    (x.exponent = 0 → (f.value x).toRat = some (signFactor x.negative * x.fraction * 2 ^ f.lsb) ∧
      (f.value x).negative? = some x.negative) ∧
    (1 ≤ x.exponent → x.exponent ≤ f.special - 1 → (f.value x).toRat =
        some (signFactor x.negative * (2 ^ (f.p - 1) + x.fraction) * 2 ^ ((x.exponent : ℤ) - (1 - f.lsb))) ∧
      (f.value x).negative? = some x.negative) := by
  refine ⟨fun he hf => ?_, fun he hf => ?_, fun he => ?_, fun hlo hhi => ?_⟩
  · rw [FpFormat.value, if_pos he, if_neg hf]
  · rw [FpFormat.value, if_pos he, if_pos hf]
  · rw [FpFormat.value, if_neg (he ▸ hs.symm), if_pos he]
    split_ifs with hf
    · simp [FpValue.toRat, FpValue.negative?, hf]
    · exact ⟨rfl, rfl⟩
  · have hexp : f.lsb + ((x.exponent : ℤ) - 1) = x.exponent - (1 - f.lsb) := by ring
    rw [FpFormat.value, if_neg (by omega), if_neg (by omega), hexp]
    simp [FpValue.toRat, FpValue.negative?]

/-- Settles O18: the clauses of R16, in each format. -/
theorem floatPatternsDecode : Obligations.FloatPatternsDecode :=
  ⟨fun v => value_clauses (f := binary32) (by decide) (unpack32 v),
    fun v => value_clauses (f := binary64) (by decide) (unpack64 v)⟩

end Sys2Proof.Machine
end

/-! ## Inferences of the spec about the float units (10_state.md R17, 42_int_to_float.md R64, R67, 43_ieee754_convert.md
R72, 45_remainder.md R85) -/

section
namespace Sys2Proof.Machine

/-! ### Sign and value -/

/-- A number other than 0 has the sign of its value. -/
theorem negative?_of_toRat {y : FpValue} {q : ℚ} (h : y.toRat = some q) (hq : q ≠ 0) :
    y.negative? = some (decide (q < 0)) := by
  cases y with
  | nan | inf n => cases h
  | zero n => exact absurd (Option.some.inj h).symm hq
  | finite n m e =>
    obtain rfl := Option.some.inj h
    have hpos : (0 : ℚ) < m * 2 ^ e := by
      have hm : (m : ℚ) ≠ 0 := by
        rintro hm
        simp [hm] at hq
      positivity
    rw [mul_assoc]
    cases n with
    | false => simp [FpValue.negative?, signFactor, hpos.le]
    | true => simp [FpValue.negative?, signFactor, hpos]

section Value
variable {f : FpFormat} (hf : f.Good) {x : Fields} (hx : f.Fits x)
include hf hx

/-- The number of a format's finite value is not 0, so only its zeros have the value 0. -/
theorem value_eq_zero_of_toRat (h : (f.value x).toRat = some 0) : ∃ n, f.value x = .zero n := by
  cases hv : f.value x with
  | nan | inf n => rw [hv] at h; cases h
  | zero n => exact ⟨n, rfl⟩
  | finite n m e =>
    have hm : m ≠ 0 := (value_finite hf hx hv).1
    have hs : signFactor n ≠ 0 := by cases n <;> simp [signFactor]
    rw [hv] at h
    have hzero : signFactor n * m * 2 ^ e = 0 := Option.some.inj h
    exact absurd hzero (by positivity)

end Value

theorem abs_signFactor_mul (n : Bool) (q : ℚ) : |signFactor n * q| = |q| := by
  cases n <;> simp [signFactor]

/-- What `isRne_exact` asks of a value, met by a number of at most `p` bits within the format's exponents. -/
theorem isRne_exact_of_bits {f : FpFormat} {m : ℕ} {e : ℤ} {x : ℚ} {y : FpValue} (h : f.IsRne x y) (hx : |x| = m * 2 ^ e)
    (hm0 : m ≠ 0) (hm : m < 2 ^ f.p) (hlo : f.lsb ≤ e) (hhi : e ≤ f.emax - f.p + 1) : y.toRat = some x := by
  obtain ⟨j, hj⟩ := on_grid hm0 hm hlo
  rw [← log_scale hm0, ← hx] at hj
  refine (isRne_exact h hj ?_).2
  have hlog := log2_lt hm0 hm
  rw [hx, scale_lt_zpow_iff hm0]
  simp only [floorLog2]
  omega

/-! ### Integer to float -/

/-- Settles O25: 32 bits fit in the 53 of binary64. -/
theorem int32ToFloat64IsExact : Obligations.Int32ToFloat64IsExact := by
  intro s t a v h hv
  obtain rfl := result_eq (exec_i32ToF64 a s) h hv
  generalize hz : (a.setWidth 32).toInt = z
  obtain ⟨hzero, hrne⟩ := pack64_intToFloat_spec z
  by_cases hz0 : z = 0
  · rw [hzero hz0, hz0]
    rfl
  · have hbound : z.natAbs < 2 ^ 53 := by
      have hlt := BitVec.toInt_lt (x := a.setWidth 32)
      have hle := BitVec.le_toInt (x := a.setWidth 32)
      omega
    refine isRne_exact_of_bits (hrne hz0) (m := z.natAbs) (e := 0) ?_ (Int.natAbs_ne_zero.mpr hz0) hbound (by decide)
      (by decide)
    rw [zpow_zero, mul_one, Nat.cast_natAbs, Int.cast_abs]

section IntToFloat
variable {z : ℤ} (hz : |z| ≤ 2 ^ 63)
include hz

/-- An integer of at most 64 bits rounds to a normal number, in a format with room for 2^64 and 1/2. -/
theorem isRne_int_normal {f : FpFormat} (hf : f.Good) (hemin : f.emin ≤ -1) (hemax : 63 ≤ f.emax) {x : Fields}
    (hx : f.Fits x) (hz0 : z ≠ 0) (h : f.IsRne z (f.value x)) :
    1 ≤ x.exponent ∧ ∃ q, (f.value x).toRat = some q ∧ |q| < 2 ^ 64 := by
  have hone : (1 : ℚ) ≤ |(z : ℚ)| := by exact_mod_cast Int.one_le_abs hz0
  have hmax : |(z : ℚ)| ≤ 2 ^ 63 := by exact_mod_cast hz
  have hhalf : (2 : ℚ) ^ f.emin ≤ 1 / 2 := by
    calc (2 : ℚ) ^ f.emin ≤ 2 ^ (-1 : ℤ) := zpow_le_zpow_right₀ one_le_two hemin
      _ = 1 / 2 := by norm_num
  have hbig : (2 : ℚ) ^ (64 : ℤ) ≤ 2 ^ (f.emax + 1) := zpow_le_zpow_right₀ one_le_two (by omega)
  obtain ⟨r, hr, hlo, hhi⟩ := isRne_near hf.one_le_p h (by linarith) (by norm_num at hbig ⊢; linarith)
  have hexp : x.exponent ≠ 0 := exponent_ne_zero hf hx hr (by linarith)
  exact ⟨Nat.one_le_iff_ne_zero.mpr hexp, r, hr, by linarith⟩

theorem finite_of_int32 {w : BitVec 32} (hw : (z = 0 → w = 0) ∧ (z ≠ 0 → binary32.IsRne z (fval32 w))) :
    (w = 0 ∨ 1 ≤ (w.extractLsb' 23 8).toNat) ∧ ∃ q, (fval32 w).toRat = some q ∧ |q| < 2 ^ 64 := by
  obtain ⟨hzero, hrne⟩ := hw
  by_cases hz0 : z = 0
  · rw [hzero hz0]
    exact ⟨.inl rfl, 0, rfl, by norm_num⟩
  · obtain ⟨hexp, hq⟩ := isRne_int_normal hz binary32_good (by decide) (by decide) (fits_unpack32 _) hz0 (hrne hz0)
    exact ⟨.inr hexp, hq⟩

theorem finite_of_int64 {w : BitVec 64} (hw : (z = 0 → w = 0) ∧ (z ≠ 0 → binary64.IsRne z (fval64 w))) :
    (w = 0 ∨ 1 ≤ (w.extractLsb' 52 11).toNat) ∧ ∃ q, (fval64 w).toRat = some q ∧ |q| < 2 ^ 64 := by
  obtain ⟨hzero, hrne⟩ := hw
  by_cases hz0 : z = 0
  · rw [hzero hz0]
    exact ⟨.inl rfl, 0, rfl, by norm_num⟩
  · obtain ⟨hexp, hq⟩ := isRne_int_normal hz binary64_good (by decide) (by decide) (fits_unpack64 _) hz0 (hrne hz0)
    exact ⟨.inr hexp, hq⟩

end IntToFloat

/-- A signed word of at most 64 bits is at most 2^63 in magnitude. -/
theorem abs_toInt_le {w : ℕ} (hw : w ≤ 64) (x : BitVec w) : |x.toInt| ≤ 2 ^ 63 := by
  have hlt := BitVec.toInt_lt (x := x)
  have hle := BitVec.le_toInt (x := x)
  have hpow : (2 : ℤ) ^ (w - 1) ≤ 2 ^ 63 := pow_le_pow_right₀ one_le_two (by omega)
  exact abs_le.mpr ⟨by linarith, by linarith⟩

/-- Settles O28: an integer other than 0 is 1 or more and below 2^64, and rounds to within half and twice its size. -/
theorem intToFloatStaysFinite : Obligations.IntToFloatStaysFinite := by
  intro s t a v
  constructor
  · intro h hv
    have hw : ∃ z : ℤ, |z| ≤ 2 ^ 63 ∧ v = (pack32 (intToFloat binary32 z)).setWidth 64 := by
      obtain h | h := h
      · exact ⟨_, abs_toInt_le (by decide) (a.setWidth 32), result_eq (exec_i32ToF32 a s) h hv⟩
      · exact ⟨_, abs_toInt_le le_rfl a, result_eq (exec_i64ToF32 a s) h hv⟩
    obtain ⟨z, hz, rfl⟩ := hw
    rw [setWidth_setWidth]
    obtain ⟨hexp, hq⟩ := finite_of_int32 hz (pack32_intToFloat_spec z)
    exact ⟨hexp.imp_left fun hzero => by rw [hzero]; rfl, hq⟩
  · intro h hv
    have hw : ∃ z : ℤ, |z| ≤ 2 ^ 63 ∧ v = pack64 (intToFloat binary64 z) := by
      obtain h | h := h
      · exact ⟨_, abs_toInt_le (by decide) (a.setWidth 32), result_eq (exec_i32ToF64 a s) h hv⟩
      · exact ⟨_, abs_toInt_le le_rfl a, result_eq (exec_i64ToF64 a s) h hv⟩
    obtain ⟨z, hz, rfl⟩ := hw
    exact finite_of_int64 hz (pack64_intToFloat_spec z)

/-! ### Narrowing -/

/-- An even number is reached by rounding exactly from half a unit below it on: the tie goes to it. -/
theorem le_nearest_iff {m n : ℕ} {x : ℚ} (h : IsNearestTieEven m x) (hn : n % 2 = 0) : n ≤ m ↔ (n : ℚ) - 1 / 2 ≤ x := by
  obtain ⟨hnear, htie⟩ := h
  obtain ⟨hlo, hhi⟩ := abs_le.mp hnear
  constructor
  · intro hle
    have hq : (n : ℚ) ≤ m := by exact_mod_cast hle
    linarith
  · intro hx
    by_contra hlt
    have hq : (m : ℚ) + 1 ≤ n := by exact_mod_cast Nat.lt_of_not_le hlt
    have hhalf : (m : ℚ) - x = -(1 / 2) := by linarith
    have heven : m % 2 = 0 := htie (by rw [hhalf, abs_neg, abs_of_pos one_half_pos])
    have hodd : m + 1 = n := by
      have : (n : ℚ) ≤ m + 1 := by linarith
      exact_mod_cast le_antisymm hq this
    omega

section Overflow
variable {x : ℚ} {k : ℤ} {m : ℕ}

/-- A power of two in units of `2^(k-23)`, the spacing of the binary32 numbers from `2^k` on. -/
theorem zpow_in_units (k : ℤ) (j : ℕ) : (2 : ℚ) ^ (k - 23 + j) = 2 ^ j * 2 ^ (k - 23) := by
  rw [zpow_add₀ two_ne_zero, zpow_natCast, mul_comm]

/-- Below the greatest binade of binary32, rounding stays below 2^128. -/
theorem nearest_lt_of_lt_top (hk : k < 127) (hx : x < 2 ^ (k + 1)) (hm : IsNearestTieEven m (x / 2 ^ (k - 23))) :
    (m : ℚ) * 2 ^ (k - 23) < 2 ^ 128 := by
  have hu : (0 : ℚ) < 2 ^ (k - 23) := by positivity
  have htop : (2 : ℚ) ^ (k + 1) ≤ 2 ^ (127 : ℤ) := zpow_le_zpow_right₀ one_le_two (by omega)
  have hunit : (2 : ℚ) ^ (k - 23) ≤ 2 ^ (127 : ℤ) := zpow_le_zpow_right₀ one_le_two (by omega)
  have hround : (m : ℚ) * 2 ^ (k - 23) ≤ x + 2 ^ (k - 23) / 2 := by
    have hhalf : (m : ℚ) ≤ x / 2 ^ (k - 23) + 1 / 2 := by linarith [(abs_le.mp hm.1).2]
    calc (m : ℚ) * 2 ^ (k - 23) ≤ (x / 2 ^ (k - 23) + 1 / 2) * 2 ^ (k - 23) := by gcongr
      _ = x + 2 ^ (k - 23) / 2 := by field_simp
  norm_num at htop hunit ⊢
  linarith

/-- In the greatest binade of binary32, rounding reaches 2^128 from half a unit below it on. -/
theorem le_nearest_top_iff (hm : IsNearestTieEven m (x / 2 ^ 104)) :
    (2 : ℚ) ^ 128 ≤ m * 2 ^ 104 ↔ 2 ^ 128 - 2 ^ 103 ≤ x := by
  have hn := le_nearest_iff (n := 2 ^ 24) hm rfl
  calc (2 : ℚ) ^ 128 ≤ m * 2 ^ 104 ↔ (2 : ℚ) ^ 24 ≤ m := by
        rw [show (2 : ℚ) ^ 128 = 2 ^ 24 * 2 ^ 104 by norm_num, mul_le_mul_iff_left₀ (by positivity)]
    _ ↔ 2 ^ 24 ≤ m := by exact_mod_cast Iff.rfl
    _ ↔ ((2 ^ 24 : ℕ) - 1 / 2 : ℚ) * 2 ^ 104 ≤ x := hn.trans (le_div_iff₀ (by positivity))
    _ ↔ 2 ^ 128 - 2 ^ 103 ≤ x := by norm_num

/-- Rounding a value of at least `2^k` stays at or above `2^k`. -/
theorem zpow_le_nearest (hx : 2 ^ k ≤ x) (hm : IsNearestTieEven m (x / 2 ^ (k - 23))) :
    (2 : ℚ) ^ k ≤ m * 2 ^ (k - 23) := by
  have hu : (0 : ℚ) < 2 ^ (k - 23) := by positivity
  have hpow : (2 : ℚ) ^ k = 2 ^ 23 * 2 ^ (k - 23) := by
    rw [← zpow_in_units]
    congr 1
    omega
  have hn : 2 ^ 23 ≤ m := by
    rw [le_nearest_iff hm rfl, le_div_iff₀ hu]
    push_cast
    linarith
  rw [hpow]
  gcongr
  exact_mod_cast hn

/-- Rounding to binary32 reaches 2^128 exactly from 2^128 - 2^103 on (R17), by the binade of the value: below the greatest,
in it, and above it. -/
theorem binary32_overflow_iff (hx : x ≠ 0)
    (hm : IsNearestTieEven m (|x| / 2 ^ (max (Int.log 2 |x|) binary32.emin - binary32.p + 1))) :
    (2 : ℚ) ^ (binary32.emax + 1) ≤ m * 2 ^ (max (Int.log 2 |x|) binary32.emin - binary32.p + 1) ↔
      2 ^ 128 - 2 ^ 103 ≤ |x| := by
  have hlow : (2 : ℚ) ^ Int.log 2 |x| ≤ |x| := by
    exact_mod_cast Int.zpow_log_le_self (b := 2) one_lt_two (abs_pos.mpr hx)
  have hhigh : |x| < (2 : ℚ) ^ (Int.log 2 |x| + 1) := by exact_mod_cast Int.lt_zpow_succ_log_self (b := 2) one_lt_two |x|
  obtain ⟨k, hk⟩ : ∃ k, k = max (Int.log 2 |x|) (-126) := ⟨_, rfl⟩
  have hunit : max (Int.log 2 |x|) binary32.emin - binary32.p + 1 = k - 23 := by
    simp only [binary32, hk]
    omega
  rw [hunit] at hm ⊢
  change (2 : ℚ) ^ 128 ≤ _ ↔ _
  obtain hlt | rfl | hgt := lt_trichotomy k 127
  · have htop : |x| < 2 ^ (127 : ℤ) := hhigh.trans_le (zpow_le_zpow_right₀ one_le_two (by omega))
    have hround := nearest_lt_of_lt_top hlt (hhigh.trans_le (zpow_le_zpow_right₀ one_le_two (by omega))) hm
    refine iff_of_false hround.not_ge (not_le.mpr (htop.trans ?_))
    norm_num
  · exact le_nearest_top_iff hm
  · have hbig : (2 : ℚ) ^ (128 : ℤ) ≤ 2 ^ k := zpow_le_zpow_right₀ one_le_two (by omega)
    have hxk : 2 ^ k ≤ |x| := by rwa [show k = Int.log 2 |x| by omega]
    have hround := zpow_le_nearest hxk hm
    refine iff_of_true (hbig.trans hround) ?_
    norm_num at hbig ⊢
    linarith

end Overflow

/-- Settles O31: an infinity is where the rounding reaches 2^128. -/
theorem float64NarrowingOverflowThreshold : Obligations.Float64NarrowingOverflowThreshold := by
  intro s t a v q hq h hv
  obtain rfl := result_eq (exec_f64ToF32 a s) h hv
  rw [setWidth_setWidth]
  by_cases hq0 : q = 0
  · subst hq0
    obtain ⟨n, hn⟩ := value_eq_zero_of_toRat binary64_good (fits_unpack64 a) hq
    have hzero : (fval32 (narrowedPattern a)).toRat = some 0 := by
      rw [narrowedPattern_zero hn]
      cases n <;> rfl
    refine ⟨fun ⟨n, hinf⟩ => ?_, fun hbig => ?_⟩
    · rw [hinf] at hzero
      cases hzero
    · norm_num at hbig
  · obtain ⟨m, hm, hinf⟩ := isRne_inf_iff (narrowedPattern_number hq hq0)
    exact hinf.trans (binary32_overflow_iff hq0 hm)

/-! ### Narrowing, then widening -/

/-- Widening keeps the sign and the value of every pattern, in so far as it has them (R68). -/
theorem widenedPattern_value (v : Bus) :
    (fval64 (widenedPattern v)).negative? = (fval32 (v.setWidth 32)).negative? ∧
      (fval64 (widenedPattern v)).toRat = (fval32 (v.setWidth 32)).toRat := by
  have number {q : ℚ} (hq : (fval32 (v.setWidth 32)).toRat = some q) :
      (fval64 (widenedPattern v)).negative? = (fval32 (v.setWidth 32)).negative? ∧
        (fval64 (widenedPattern v)).toRat = (fval32 (v.setWidth 32)).toRat := by
    obtain ⟨hrat, hneg⟩ := widenedPattern_number hq
    exact ⟨hneg, hrat.trans hq.symm⟩
  cases h : fval32 (v.setWidth 32) with
  | nan =>
    rw [widenedPattern_nan h 0, fval64_pNan64]
    exact ⟨rfl, rfl⟩
  | inf n =>
    rw [widenedPattern_inf h]
    cases n <;> exact ⟨rfl, rfl⟩
  | zero n | finite n m e => exact h ▸ number (congrArg FpValue.toRat h)

/-- A binary64 number whose value a binary32 pattern has narrows to that value (R69). -/
theorem narrowedPattern_exact {a : Bus} {q : ℚ} (hq : (fval64 a).toRat = some q) (hq0 : q ≠ 0) {x : BitVec 32}
    (hx : (fval32 x).toRat = some q) : (fval32 (narrowedPattern a)).toRat = some q := by
  cases hv : fval32 x with
  | nan | inf n => rw [hv] at hx; cases hx
  | zero n =>
    rw [hv] at hx
    exact absurd (Option.some.inj hx).symm hq0
  | finite n m e =>
    obtain ⟨hm0, hm, hlo, hhi, -⟩ := value_finite binary32_good (fits_unpack32 x) hv
    rw [hv] at hx
    have habs : |q| = m * 2 ^ e := by
      obtain rfl := Option.some.inj hx
      rw [mul_assoc, abs_signFactor_mul, abs_of_nonneg (by positivity)]
    exact isRne_exact_of_bits (narrowedPattern_number hq hq0) habs hm0 hm hlo hhi

/-- Narrowing keeps the sign and the value of an operand when a binary32 pattern has them, and the operand is no NaN. -/
theorem narrowedPattern_value {a : Bus} (hnan : fval64 a ≠ .nan) {x : BitVec 32}
    (hx : (fval32 x).toRat = (fval64 a).toRat) :
    (fval32 (narrowedPattern a)).negative? = (fval64 a).negative? ∧
      (fval32 (narrowedPattern a)).toRat = (fval64 a).toRat := by
  cases h : fval64 a with
  | nan => exact absurd h hnan
  | inf n =>
    rw [narrowedPattern_inf h]
    cases n <;> exact ⟨rfl, rfl⟩
  | zero n =>
    rw [narrowedPattern_zero h]
    cases n <;> exact ⟨rfl, rfl⟩
  | finite n m e =>
    obtain ⟨q, hq⟩ : ∃ q, (fval64 a).toRat = some q := ⟨_, congrArg FpValue.toRat h⟩
    have hq0 : q ≠ 0 := by
      rintro rfl
      obtain ⟨n', hzero⟩ := value_eq_zero_of_toRat binary64_good (fits_unpack64 a) hq
      cases h.symm.trans hzero
    have hrat := narrowedPattern_exact hq hq0 (hx.trans hq)
    rw [← h, negative?_of_toRat hq hq0, negative?_of_toRat hrat hq0]
    exact ⟨rfl, hrat.trans hq.symm⟩

/-- Two binary64 patterns with one sign and one value, not NaNs, are the same. -/
theorem fval64_injective {v w : BitVec 64} (hnan : fval64 v ≠ .nan) (hneg : (fval64 v).negative? = (fval64 w).negative?)
    (hrat : (fval64 v).toRat = (fval64 w).toRat) : v = w := by
  have hfields := value_injective binary64_good (fits_unpack64 v) (fits_unpack64 w) hnan hneg hrat
  rw [← pack64_unpack64 v, hfields, pack64_unpack64]

/-- Settles O33: widening changes neither sign nor value, narrowing neither when binary32 has them, and a pattern that is
no NaN is given by the two. -/
theorem narrowThenWidenRoundTrip : Obligations.NarrowThenWidenRoundTrip := by
  intro s t u a v w hnan h hv h' hw
  obtain rfl := result_eq (exec_f64ToF32 a s) h hv
  obtain rfl := result_eq (exec_f32ToF64 _ t) h' hw
  obtain ⟨hneg, hrat⟩ := widenedPattern_value ((narrowedPattern a).setWidth 64)
  refine ⟨?_, hneg, hrat⟩
  rw [setWidth_setWidth] at hneg hrat
  constructor
  · intro hback
    rw [hback] at hneg hrat
    exact ⟨narrowedPattern a, hneg.symm, hrat.symm⟩
  · rintro ⟨x, -, hx⟩
    obtain ⟨hneg', hrat'⟩ := narrowedPattern_value hnan hx
    exact (fval64_injective hnan (hneg.trans hneg').symm (hrat.trans hrat').symm).symm

/-! ### Float remainder -/

theorem abs_sub_truncRat_lt_one (x : ℚ) : |x - truncRat x| < 1 := by
  rw [truncRat, abs_lt]
  split_ifs
  · have hle := Int.floor_le x
    have hlt := Int.lt_floor_add_one x
    constructor <;> linarith
  · have hle := Int.le_ceil x
    have hlt := Int.ceil_lt_add_one x
    constructor <;> linarith

/-- What is left after the truncated quotient is smaller than the divisor. -/
theorem abs_sub_mul_truncRat_lt (p : ℚ) {q : ℚ} (hq : q ≠ 0) : |p - q * truncRat (p / q)| < |q| := by
  calc |p - q * truncRat (p / q)| = |q| * |p / q - truncRat (p / q)| := by
        rw [← abs_mul, mul_sub, mul_div_cancel₀ p hq]
    _ < |q| := mul_lt_of_lt_one_right (abs_pos.mpr hq) (abs_sub_truncRat_lt_one _)

/-- A remainder by R85 that is no NaN has the dividend's sign, and is a finite value smaller than the divisor. -/
theorem IsFloatRemainder.small_and_signed {x y r : FpValue} (h : IsFloatRemainder x y r)
    (hx : x.toRat = some 0 → ∃ n, x = .zero n) (hr : r ≠ .nan) :
    r.negative? = x.negative? ∧ ∃ z, r.toRat = some z ∧ ∀ q, y.toRat = some q → |z| < |q| := by
  obtain ⟨hnan, hinf, hzero, hnumbers⟩ := h
  have hdefined := mt hnan hr
  simp only [not_or] at hdefined
  obtain ⟨hxnan, hynan, hy0, hxinf, hxinf'⟩ := hdefined
  obtain ⟨p, hp⟩ : ∃ p, x.toRat = some p := by
    cases x with
    | nan => exact absurd rfl hxnan
    | inf n =>
      cases n
      · exact absurd rfl hxinf
      · exact absurd rfl hxinf'
    | zero n | finite n m e => exact ⟨_, rfl⟩
  cases hy : y.toRat with
  | none =>
    obtain ⟨n, rfl⟩ : ∃ n, y = .inf n := by
      cases y with
      | nan => exact absurd rfl hynan
      | inf n => exact ⟨n, rfl⟩
      | zero n | finite n m e => cases hy
    obtain rfl := hinf p n hp rfl
    exact ⟨rfl, p, hp, nofun⟩
  | some q =>
    have hq0 : q ≠ 0 := fun h => hy0 (h ▸ hy)
    by_cases hp0 : p = 0
    · obtain ⟨n, rfl⟩ := hx (hp0 ▸ hp)
      obtain rfl := hzero n q rfl hy hq0
      refine ⟨rfl, 0, rfl, fun q' hq' => ?_⟩
      obtain rfl := Option.some.inj hq'
      simpa using hq0
    · obtain ⟨hrat, hneg⟩ := hnumbers p q hp hy hp0 hq0
      refine ⟨hneg, _, hrat, fun q' hq' => ?_⟩
      obtain rfl := Option.some.inj hq'
      exact abs_sub_mul_truncRat_lt p hq0

/-- Settles O43: what both commands answer is a remainder by R85. -/
theorem floatRemainderIsSmallAndSigned : Obligations.FloatRemainderIsSmallAndSigned := by
  intro s t a b v hv
  constructor
  · intro h hnan
    obtain rfl := result_eq (exec_frem32 a b s) h hv
    rw [setWidth_setWidth] at hnan ⊢
    obtain ⟨hrem, -⟩ := floatRemainder_pattern binary32_good unpack32_pack32 (fits_unpack32 (a.setWidth 32))
      (fits_unpack32 (b.setWidth 32)) (fval32_pNan32 0x52 a b)
    exact hrem.small_and_signed (value_eq_zero_of_toRat binary32_good (fits_unpack32 _)) hnan
  · intro h hnan
    obtain rfl := result_eq (exec_frem64 a b s) h hv
    obtain ⟨hrem, -⟩ := floatRemainder_pattern binary64_good unpack64_pack64 (fits_unpack64 a) (fits_unpack64 b)
      (fval64_pNan64 0x53 a b)
    exact hrem.small_and_signed (value_eq_zero_of_toRat binary64_good (fits_unpack64 _)) hnan

end Sys2Proof.Machine
end
